-- ==== Sys2Proof/Word.lean ====
section
/-! DEFINITION. The block's word types (00_scope.md R8, R16: 32-bit registers, 8-bit wire values, 8-bit host byte
addresses; bit 0 is the least significant bit of every value). -/

namespace Sys2Proof

/-- A 32-bit block register, command word or bus datum (00_scope.md R8 `XLEN`; 30_encoding.md R90). -/
abbrev Word := BitVec 32

/-- An 8-bit wire value of a sensor register (00_scope.md R18). -/
abbrev Byte := BitVec 8

/-- A host byte address (00_scope.md R8 `ABITS`; 20_memory.md R60). -/
abbrev Addr := BitVec 8

end Sys2Proof
end

