-- ==== Sys2Proof/Config.lean ====
section
/-! DEFINITION. What an implementation of the block fixes: the parameter records of 00_scope.md R9 and R10, the
configuration table of 43_drdy_timeout.md R222, and what makes them well formed. The VALUES (the defaults the spec gives, and
the constant tables of 00_scope.md R14) stand in Machine/Tables.lean. The spec leaves no value open, so there is no free
value here. -/

namespace Sys2Proof

/-- The two accumulator banks (00_scope.md R8; 30_encoding.md R96): bank 0 is the baseline, bank 1 the self-test bank. -/
inductive Bank where
  | bank0
  | bank1
deriving DecidableEq, Repr

/-- The other bank. -/
def Bank.other : Bank → Bank
  | .bank0 => .bank1
  | .bank1 => .bank0

/-- The wire-layout parameters (00_scope.md R9). Each is the least bit of its field inside the 8-bit wire value. -/
structure Layout where
  /-- `L_C2_FS125`: control-2, the 1-bit "special bit". -/
  c2Fs125 : Nat
  /-- `L_C2_FSG`: control-2, the 2-bit full-scale selector. -/
  c2Fsg : Nat
  /-- `L_C2_ODR`: control-2, the 4-bit output-data-rate field. -/
  c2Odr : Nat
  /-- `L_C5_ST`: control-5, the 2-bit gyro self-test field. -/
  c5St : Nat
  /-- `L_C5_RND`: control-5, the 1-bit rounding control. -/
  c5Rnd : Nat
  /-- `L_SR_GDA`: status, the 1-bit "gyro data available". -/
  srGda : Nat
deriving DecidableEq, Repr

/-- Bit `i` lies in the field of width `n` whose least bit is `lo`. -/
def inField (lo n i : Nat) : Bool := lo ≤ i && i < lo + n

/-- Two fields share no bit. -/
def fieldsApart (lo n lo' n' : Nat) : Bool := lo + n ≤ lo' || lo' + n' ≤ lo

/-- 00_scope.md R9: each field lies inside bits [7:0] and no two fields of the same register overlap. -/
def Layout.wf (l : Layout) : Bool :=
  l.c2Fs125 + 1 ≤ 8 && l.c2Fsg + 2 ≤ 8 && l.c2Odr + 4 ≤ 8 && l.c5St + 2 ≤ 8 && l.c5Rnd + 1 ≤ 8 && l.srGda + 1 ≤ 8 &&
  fieldsApart l.c2Fs125 1 l.c2Fsg 2 && fieldsApart l.c2Fs125 1 l.c2Odr 4 && fieldsApart l.c2Fsg 2 l.c2Odr 4 &&
  fieldsApart l.c5St 2 l.c5Rnd 1

/-- Bit `i` of control-2 belongs to no codec field ("unrelated bits", 00_scope.md R11, 41_register_codec.md R140). -/
def Layout.c2Unrelated (l : Layout) (i : Nat) : Bool :=
  !inField l.c2Fs125 1 i && !inField l.c2Fsg 2 i && !inField l.c2Odr 4 i

/-- Bit `i` of control-5 belongs to no codec field (00_scope.md R11, 41_register_codec.md R141). -/
def Layout.c5Unrelated (l : Layout) (i : Nat) : Bool :=
  !inField l.c5St 2 i && !inField l.c5Rnd 1 i

/-- The code parameters of the sensor's field values (00_scope.md R10). -/
structure Codes where
  /-- `ODR_WIRE(k)` for k = 0..10, in order. -/
  odrWire : List (BitVec 4)
  /-- `ST_NONE`. -/
  stNone : BitVec 2
  /-- `ST_POS`. -/
  stPos : BitVec 2
  /-- `ST_NEG`. -/
  stNeg : BitVec 2
  /-- `ST_RSV`, the value not allowed. -/
  stRsv : BitVec 2
  /-- `RND_ON`. -/
  rndOn : BitVec 1
  /-- `RND_OFF`. -/
  rndOff : BitVec 1
deriving DecidableEq, Repr

/-- DEDUCED, log 10: the codes name eleven different rates, four different self-test values and two different rounding
values. Without it no decoder could invert the encoder (41_register_codec.md R157, R166). -/
def Codes.wf (c : Codes) : Bool :=
  c.odrWire.length == 11 && decide c.odrWire.Nodup &&
  decide [c.stNone, c.stPos, c.stNeg, c.stRsv].Nodup && c.rndOn != c.rndOff

/-- Everything the spec makes a parameter: the layout (R9), the codes (R10) and the timeout table `TMO` in milliseconds,
indexed by rate (43_drdy_timeout.md R222; 93_implementation_defined.md items 25 and 26). -/
structure Params where
  layout : Layout
  codes : Codes
  tmo : List Nat
deriving DecidableEq, Repr

/-- A parameter record with a well-formed layout, well-formed codes and one timeout for each of the eleven rates
(43_drdy_timeout.md R222; log 10). It sets no bound on a timeout, as the spec sets none (log 20). -/
def Params.wf (p : Params) : Bool := p.layout.wf && p.codes.wf && p.tmo.length == 11

end Sys2Proof
end

