-- ==== Sys2Proof/Machine/Tables.lean ====
section
/-! DEFINITION. The values of the block's configuration: the default parameters (00_scope.md R9, R10; 43_drdy_timeout.md
R222) and the constant tables the document fixes (00_scope.md R14). All of them are the spec's, unaudited (R4, log 11);
the wire positions and codes are general knowledge the spec gives as defaults (log 7, log 8). -/

namespace Sys2Proof.Machine

/-- PRESUMED, log 7: the default wire layout (00_scope.md R9), the LSM6DSOX datasheet positions the spec takes as defaults. -/
def defaultLayout : Layout :=
  { c2Fs125 := 1, c2Fsg := 2, c2Odr := 4, c5St := 2, c5Rnd := 6, srGda := 1 }

/-- PRESUMED, log 8: the default codes (00_scope.md R10): `ODR_WIRE(k) = k`, `ST_NONE` 0b00, `ST_POS` 0b01, `ST_NEG` 0b11,
`ST_RSV` 0b10, `RND_ON` 1, `RND_OFF` 0. -/
def defaultCodes : Codes :=
  { odrWire := [0, 1, 2, 3, 4, 5, 6, 7, 8, 9, 10]
    stNone := 0b00#2, stPos := 0b01#2, stNeg := 0b11#2, stRsv := 0b10#2
    rndOn := 1#1, rndOff := 0#1 }

/-- UNVERIFIED, log 11: the timeout table `TMO`, milliseconds by rate index (43_drdy_timeout.md R222), computed by the spec
from the document's derivation with round to nearest (R220, R221). -/
def defaultTmo : List Nat := [0, 100, 48, 24, 12, 6, 3, 2, 1, 1, 1]

/-- The default parameters, which a block has unless it is given others (00_scope.md R9, R10; log 9). -/
def defaultParams : Params := { layout := defaultLayout, codes := defaultCodes, tmo := defaultTmo }

/-- The full-scale domain in dps, by FSEL (00_scope.md R12). -/
def fullScaleDps : List Nat := [125, 250, 500, 1000, 2000]

/-- The output-data-rate domain in tenths of a hertz, by rate index; 0 stands for `off` (00_scope.md R13). -/
def rateTenthsHz : List Nat := [0, 125, 260, 520, 1040, 2080, 4160, 8330, 16660, 33320, 66640]

/-- The full-scale encoding table (41_register_codec.md R143): (special bit, selector) by FSEL. -/
def fsEncTable : List (BitVec 1 × BitVec 2) := [(1, 0), (0, 0), (0, 1), (0, 2), (0, 3)]

/-- The sensitivity table in thousandths of a mdps per LSB, by FSEL (00_scope.md R14: 4.375, 8.75, 17.5, 35.0, 70.0). -/
def sensMicroDps : List Nat := [4375, 8750, 17500, 35000, 70000]

/-- The scaler's table K in units of 1/8 mdps per LSB, by FSEL (42_scaler.md R201). -/
def kTable : List Nat := [35, 70, 140, 280, 560]

/-- The self-test windows [min, max] in LSB, by MODE[1] (44_selftest_compare.md R241): 250 dps, 2000 dps. -/
def windowTable : List (Nat × Nat) := [(20, 80), (150, 700)]

/-- The FSEL of a self-test mode, by MODE[1] (44_selftest_compare.md R240). -/
def selfTestFselTable : List (BitVec 3) := [1, 4]

/-- Samples per self-test average (00_scope.md R14; 44_selftest_compare.md R247). The host's number: a bank takes 1 to
`accCntMax` samples. -/
def selfTestSamples : Nat := 5

/-- The host's settle wait of the self-test in milliseconds (70_reset_and_hazards.md R346; 93_implementation_defined.md
part 2). The block does not wait (60_exceptions.md R312). -/
def settleTimeMs : Nat := 100

/-- The data-ready timeout in hundredths of a sample period (00_scope.md R14; 43_drdy_timeout.md R220: 1.25). -/
def timeoutPercent : Nat := 125

/-- The least timeout of a rate other than `off`, in milliseconds (43_drdy_timeout.md R220). -/
def timeoutFloorMs : Nat := 1

/-- The divisor of `DLY` (43_drdy_timeout.md R223). -/
def delayDivisor : Nat := 4

/-- The addend of `DLY`, in milliseconds (43_drdy_timeout.md R223). -/
def delayAddendMs : Nat := 1

/-- `ACC_CNT_MAX` (00_scope.md R8). -/
def accCntMax : Word := 255

end Sys2Proof.Machine
end

