-- ==== Sys2Proof/Syntax.lean ====
section
/-! DEFINITION. The twelve commands of 30_encoding.md R101, one constructor per row of spec/opcode_table.json, each with the
operand fields of its format (R91). Fields whose every value is legal have a type of exactly those values (Bool, Bank, two
bits of MODE); fields with illegal values (FSEL, ODRSEL, STSEL) keep the width of the encoding, and WellFormed says which
values are legal. -/

namespace Sys2Proof

/-- The commands of the gyro codec block. -/
inductive Instr where
  /-- NOP (40_control.md R130), format N. -/
  | nop
  /-- C2ENC (41_register_codec.md R150), format C2. -/
  | c2enc (fsel : BitVec 3) (odrsel : BitVec 4) (ufs uodr : Bool)
  /-- C2DEC (41_register_codec.md R155), format N. -/
  | c2dec
  /-- C5ENC (41_register_codec.md R160), format C5. -/
  | c5enc (stsel : BitVec 2) (ust rnd urnd : Bool)
  /-- C5DEC (41_register_codec.md R165), format N. -/
  | c5dec
  /-- STADEC (41_register_codec.md R170), format N. -/
  | stadec
  /-- SCALE (42_scaler.md R205), format F. -/
  | scale (fsel : BitVec 3)
  /-- DRDYTMO (43_drdy_timeout.md R225), format R. -/
  | drdytmo (odrsel : BitVec 4)
  /-- STCFG (44_selftest_compare.md R245), format M. -/
  | stcfg (mode : BitVec 2)
  /-- ACCCLR (44_selftest_compare.md R250), format B. -/
  | accclr (bank : Bank)
  /-- ACCADD (44_selftest_compare.md R254), format B. -/
  | accadd (bank : Bank)
  /-- STCMP (44_selftest_compare.md R265), format M. -/
  | stcmp (mode : BitVec 2)
deriving DecidableEq, Repr

end Sys2Proof
end

