-- ==== Sys2Proof/WellFormed.lean ====
section
/-! DEFINITION. Which commands spell a typed field-set (60_exceptions.md R301): the field checks of 30_encoding.md R92, R93
and R94. Every other field admits all its values (R95 to R97). The checks hold whether or not the field's update bit is set
(92_eei_decisions.md D25). -/

namespace Sys2Proof

/-- R92, R12: FSEL names one of five full scales. -/
def fselLegal (fsel : BitVec 3) : Bool := fsel.toNat < Machine.fullScaleDps.length

/-- R93, R13: ODRSEL names one of eleven rates. -/
def odrselLegal (odrsel : BitVec 4) : Bool := odrsel.toNat < Machine.rateTenthsHz.length

/-- R94: STSEL is not `ST_RSV`. -/
def stselLegal (c : Codes) (stsel : BitVec 2) : Bool := stsel != c.stRsv

/-- A command whose fields are all in their domains, for a block with the codes `c` (only `ST_RSV` matters). -/
def WellFormed (c : Codes) : Instr → Bool
  | .nop => true
  | .c2enc fsel odrsel _ _ => fselLegal fsel && odrselLegal odrsel
  | .c2dec => true
  | .c5enc stsel _ _ _ => stselLegal c stsel
  | .c5dec => true
  | .stadec => true
  | .scale fsel => fselLegal fsel
  | .drdytmo odrsel => odrselLegal odrsel
  | .stcfg _ => true
  | .accclr _ => true
  | .accadd _ => true
  | .stcmp _ => true

end Sys2Proof
end

