-- ==== Sys2Proof/Decode.lean ====
section
/-! DEFINITION. The command word: its formats and field masks (30_encoding.md R90, R91), the decoder with the checks of R104
in their order, the encoder of R111, and the opcode map of R99. The decoder is total: every 32-bit word gives a command or
one of the error names of 60_exceptions.md R300. -/

namespace Sys2Proof

/-- The error names of 60_exceptions.md R300. The first five are the decoder's, the last two a command's own (R302). -/
inductive CmdError where
  /-- RSVOP: OP in 0xC..0xF (30_encoding.md R102). -/
  | rsvop
  /-- RSVBITS: a bit of [31:4] outside the format's fields is 1 (R103). -/
  | rsvbits
  /-- BADFS: FSEL in 5..7. -/
  | badfs
  /-- BADODR: ODRSEL in 11..15. -/
  | badodr
  /-- BADST: STSEL = `ST_RSV`. -/
  | badst
  /-- ACCFULL: the bank already holds 255 samples. -/
  | accfull
  /-- CNTZERO: a bank is empty. -/
  | cntzero
deriving DecidableEq, Repr

/-- The error codes of 60_exceptions.md R300. -/
def CmdError.code : CmdError → Word
  | .rsvop => 1
  | .rsvbits => 2
  | .badfs => 3
  | .badodr => 4
  | .badst => 5
  | .accfull => 6
  | .cntzero => 7

/-- The seven formats of 30_encoding.md R91. -/
inductive Format where
  | N
  | C2
  | C5
  | F
  | R
  | B
  | M
deriving DecidableEq, Repr

/-- The field mask FM of a format (30_encoding.md R91). -/
def Format.fieldMask : Format → Word
  | .N => 0x00000000
  | .C2 => 0x00001FF0
  | .C5 => 0x000001F0
  | .F => 0x00000070
  | .R => 0x00000780
  | .B => 0x00000010
  | .M => 0x00000030

/-- The format of a command (30_encoding.md R91, R99). -/
def Instr.format : Instr → Format
  | .nop => .N
  | .c2enc _ _ _ _ => .C2
  | .c2dec => .N
  | .c5enc _ _ _ _ => .C5
  | .c5dec => .N
  | .stadec => .N
  | .scale _ => .F
  | .drdytmo _ => .R
  | .stcfg _ => .M
  | .accclr _ => .B
  | .accadd _ => .B
  | .stcmp _ => .M

/-- The opcode OP of a command (30_encoding.md R99). -/
def Instr.opcode : Instr → BitVec 4
  | .nop => 0x0
  | .c2enc _ _ _ _ => 0x1
  | .c2dec => 0x2
  | .c5enc _ _ _ _ => 0x3
  | .c5dec => 0x4
  | .stadec => 0x5
  | .scale _ => 0x6
  | .drdytmo _ => 0x7
  | .stcfg _ => 0x8
  | .accclr _ => 0x9
  | .accadd _ => 0xA
  | .stcmp _ => 0xB

/-- One row of the opcode map: a word `v` selects it when `v &&& mask = pattern` (30_encoding.md R99). -/
structure OpcodeRow where
  op : BitVec 4
  mnemonic : String
  format : Format
  pattern : Word
  mask : Word
deriving DecidableEq, Repr

/-- The opcode map of 30_encoding.md R99, with the match and mask columns as printed there and in spec/opcode_table.json. -/
def opcodeMap : List OpcodeRow :=
  [ ⟨0x0, "NOP", .N, 0x00000000, 0xFFFFFFFF⟩,
    ⟨0x1, "C2ENC", .C2, 0x00000001, 0xFFFFE00F⟩,
    ⟨0x2, "C2DEC", .N, 0x00000002, 0xFFFFFFFF⟩,
    ⟨0x3, "C5ENC", .C5, 0x00000003, 0xFFFFFE0F⟩,
    ⟨0x4, "C5DEC", .N, 0x00000004, 0xFFFFFFFF⟩,
    ⟨0x5, "STADEC", .N, 0x00000005, 0xFFFFFFFF⟩,
    ⟨0x6, "SCALE", .F, 0x00000006, 0xFFFFFF8F⟩,
    ⟨0x7, "DRDYTMO", .R, 0x00000007, 0xFFFFF87F⟩,
    ⟨0x8, "STCFG", .M, 0x00000008, 0xFFFFFFCF⟩,
    ⟨0x9, "ACCCLR", .B, 0x00000009, 0xFFFFFFEF⟩,
    ⟨0xA, "ACCADD", .B, 0x0000000A, 0xFFFFFFEF⟩,
    ⟨0xB, "STCMP", .M, 0x0000000B, 0xFFFFFFCF⟩ ]

/-- The word `v` selects the row (30_encoding.md R99). -/
def OpcodeRow.selects (r : OpcodeRow) (v : Word) : Bool := v &&& r.mask == r.pattern

/-! ## Fields of a command word (30_encoding.md R91) -/

/-- OP, bits [3:0]. -/
def opField (v : Word) : BitVec 4 := v.extractLsb' 0 4

/-- FSEL, bits [6:4] (R92). -/
def fselField (v : Word) : BitVec 3 := v.extractLsb' 4 3

/-- ODRSEL, bits [10:7] (R93). -/
def odrselField (v : Word) : BitVec 4 := v.extractLsb' 7 4

/-- STSEL, bits [5:4] (R94). -/
def stselField (v : Word) : BitVec 2 := v.extractLsb' 4 2

/-- MODE, bits [5:4] (R97). -/
def modeField (v : Word) : BitVec 2 := v.extractLsb' 4 2

/-- BANK, bit [4] (R96). -/
def bankField (v : Word) : Bank := if v.getLsbD 4 then .bank1 else .bank0

/-- The command that OP and the format's fields of `v` spell, whatever the reserved bits and the field values hold; none when
OP is reserved (30_encoding.md R91, R99, R102). -/
def readFields (v : Word) : Option Instr :=
  match (opField v).toNat with
  | 0 => some .nop
  | 1 => some (.c2enc (fselField v) (odrselField v) (v.getLsbD 11) (v.getLsbD 12))
  | 2 => some .c2dec
  | 3 => some (.c5enc (stselField v) (v.getLsbD 6) (v.getLsbD 7) (v.getLsbD 8))
  | 4 => some .c5dec
  | 5 => some .stadec
  | 6 => some (.scale (fselField v))
  | 7 => some (.drdytmo (odrselField v))
  | 8 => some (.stcfg (modeField v))
  | 9 => some (.accclr (bankField v))
  | 10 => some (.accadd (bankField v))
  | 11 => some (.stcmp (modeField v))
  | _ => none

/-- `v & 0xFFFFFFF0 & ~FM(op)` is not 0 (30_encoding.md R104, second check). -/
def reservedBitsSet (f : Format) (v : Word) : Bool := v &&& 0xFFFFFFF0 &&& ~~~f.fieldMask != 0

/-- The third, fourth and fifth check of 30_encoding.md R104, in that order (R302), on a command's fields. FSEL and ODRSEL
are checked whatever UFS and UODR hold, STSEL whatever UST holds (92_eei_decisions.md D25). `c` names `ST_RSV`. -/
def fieldError (c : Codes) : Instr → Option CmdError
  | .nop => none
  | .c2enc fsel odrsel _ _ => if fsel > 4 then some .badfs else if odrsel > 10 then some .badodr else none
  | .c2dec => none
  | .c5enc stsel _ _ _ => if stsel = c.stRsv then some .badst else none
  | .c5dec => none
  | .stadec => none
  | .scale fsel => if fsel > 4 then some .badfs else none
  | .drdytmo odrsel => if odrsel > 10 then some .badodr else none
  | .stcfg _ => none
  | .accclr _ => none
  | .accadd _ => none
  | .stcmp _ => none

/-- The decoder of a block with the codes `c`: the five checks of 30_encoding.md R104 in their order; the first that fails
names the error. -/
def decode (c : Codes) (v : Word) : Except CmdError Instr :=
  match readFields v with
  | none => .error .rsvop
  | some i =>
    if reservedBitsSet i.format v then .error .rsvbits
    else
      match fieldError c i with
      | some e => .error e
      | none => .ok i

/-! ## The encoder (30_encoding.md R111) -/

/-- A one-bit field as a word. -/
def flagBit (b : Bool) : Word := if b then 1 else 0

/-- BANK as a word (30_encoding.md R96). -/
def bankBit : Bank → Word
  | .bank0 => 0
  | .bank1 => 1

/-- The operand fields of a command at their places (30_encoding.md R111). -/
def operandBits : Instr → Word
  | .nop => 0
  | .c2enc fsel odrsel ufs uodr =>
    fsel.setWidth 32 <<< 4 ||| odrsel.setWidth 32 <<< 7 ||| flagBit ufs <<< 11 ||| flagBit uodr <<< 12
  | .c2dec => 0
  | .c5enc stsel ust rnd urnd =>
    stsel.setWidth 32 <<< 4 ||| flagBit ust <<< 6 ||| flagBit rnd <<< 7 ||| flagBit urnd <<< 8
  | .c5dec => 0
  | .stadec => 0
  | .scale fsel => fsel.setWidth 32 <<< 4
  | .drdytmo odrsel => odrsel.setWidth 32 <<< 7
  | .stcfg mode => mode.setWidth 32 <<< 4
  | .accclr bank => bankBit bank <<< 4
  | .accadd bank => bankBit bank <<< 4
  | .stcmp mode => mode.setWidth 32 <<< 4

/-- The command word of a command: OP and its operand fields, every other bit 0 (30_encoding.md R91, R111). -/
def encode (i : Instr) : Word := i.opcode.setWidth 32 ||| operandBits i

/-- The decoder's answer for a row of spec/opcode_table.json whose bits are `w`. A command is one 32-bit word, so `w` is the
word itself; a number that is no 32-bit word is no command (30_encoding.md R90). The codes are the defaults. -/
def decodeTableWord (nbits w : Nat) : Option Instr :=
  if nbits ≤ 32 ∧ w < 2 ^ 32 then (decode Machine.defaultCodes (BitVec.ofNat 32 w)).toOption else none

end Sys2Proof
end

