-- ==== Sys2Proof/Machine/State.lean ====
section
/-! DEFINITION. The state of the block and of its host port, as plain data: the seventeen 32-bit registers of 10_state.md
R30 (R41: the block has no other state), and beside them what stands outside the registers but decides what happens next: the
block's parameters (00_scope.md R9, R10), the host's remaining program and its read trace (30_encoding.md R109) and the level
of the reset input (70_reset_and_hazards.md R340). -/

namespace Sys2Proof.Machine

/-- One accumulator bank (10_state.md R35): three signed 32-bit sums and the count of samples. -/
structure AccBank where
  /-- ACCbX. -/
  x : Word
  /-- ACCbY. -/
  y : Word
  /-- ACCbZ. -/
  z : Word
  /-- CNTb. -/
  cnt : Word
deriving DecidableEq, Repr

/-- An empty bank: what reset and ACCCLR leave (70_reset_and_hazards.md R340, 44_selftest_compare.md R250). -/
def AccBank.empty : AccBank := { x := 0, y := 0, z := 0, cnt := 0 }

/-- The names of the seventeen registers (10_state.md R30). -/
inductive Reg where
  | cmd
  | stat
  | arg0
  | arg1
  | arg2
  | res0
  | res1
  | res2
  | res3
  | acc0x
  | acc0y
  | acc0z
  | cnt0
  | acc1x
  | acc1y
  | acc1z
  | cnt1
deriving DecidableEq, Repr

/-- What the host does next at the block's ports. -/
inductive HostEvent where
  /-- A read of `size` bytes at `addr` (20_memory.md R63 BusRead). -/
  | read (addr : Addr) (size : Nat)
  /-- A write of `size` bytes at `addr` (20_memory.md R63 BusWrite). The bus carries 32 bits of data. An access of another
  size ends in a bus error before the data matters (log 6). -/
  | write (addr : Addr) (size : Nat) (value : Word)
  /-- The reset input goes to this level: true asserts reset, false releases it (70_reset_and_hazards.md R340, R342;
  log 5). -/
  | resetInput (asserted : Bool)
deriving DecidableEq, Repr

/-- The machine's state. -/
structure State where
  /-- CMD (10_state.md R31): the last command word written. -/
  cmd : Word
  /-- STAT (10_state.md R32): the outcome of the last command. -/
  stat : Word
  /-- ARG0 (10_state.md R33): X sample, or the wire byte. -/
  arg0 : Word
  /-- ARG1 (10_state.md R33): Y sample. -/
  arg1 : Word
  /-- ARG2 (10_state.md R33): Z sample. -/
  arg2 : Word
  /-- RES0 (10_state.md R34). -/
  res0 : Word
  /-- RES1 (10_state.md R34). -/
  res1 : Word
  /-- RES2 (10_state.md R34). -/
  res2 : Word
  /-- RES3 (10_state.md R34). -/
  res3 : Word
  /-- ACC0X, ACC0Y, ACC0Z, CNT0 (10_state.md R35): the baseline bank. -/
  bank0 : AccBank
  /-- ACC1X, ACC1Y, ACC1Z, CNT1 (10_state.md R35): the self-test bank. -/
  bank1 : AccBank
  /-- The parameters of this block: the wire layout, the codes and the timeout table (00_scope.md R9: a model takes them as an
  argument; log 9). Nothing changes them. -/
  params : Params
  /-- The host's remaining program, next event first (30_encoding.md R109; log 1). -/
  program : List HostEvent
  /-- The values the host has read so far, oldest first (30_encoding.md R109; log 3). -/
  trace : List Word
  /-- The reset input is asserted (70_reset_and_hazards.md R342; log 5). -/
  inReset : Bool
deriving DecidableEq, Repr

/-- 70_reset_and_hazards.md R340: every register is 0 right after reset. The parameters are the defaults (log 9). No
program is loaded, nothing has been read, and the reset input is released (log 1, log 3, log 5). -/
def State.reset : State :=
  { cmd := 0, stat := 0, arg0 := 0, arg1 := 0, arg2 := 0, res0 := 0, res1 := 0, res2 := 0, res3 := 0
    bank0 := AccBank.empty, bank1 := AccBank.empty, params := defaultParams, program := [], trace := [], inReset := false }

/-- Why the machine stops. -/
inductive Fault where
  /-- Raised by a misaligned or not 4-byte host access: the host program's fault (20_memory.md R64). The spec says that the
  run stops there. Safe: nothing is claimed of what a host does after a bus error. -/
  | busError
  /-- Raised by a host access while the reset input is asserted: the spec gives no step for it ("stuck",
  70_reset_and_hazards.md R342). Safe. -/
  | accessDuringReset
deriving DecidableEq, Repr

/-- Why a command has no meaning. -/
inductive Refusal where
  /-- Raised by exec's arm of a command that has no meaning yet. No arm does: every command is modelled. Safe. -/
  | notModelled (mnemonic : String)
deriving DecidableEq, Repr

end Sys2Proof.Machine
end

