-- ==== Sys2Proof/Machine/Flags.lean ====
section
/-! DEFINITION. STAT, the block's only flags (10_state.md R32, R39): how a command's outcome is packed into it and how its
fields are read. -/

namespace Sys2Proof.Machine

/-- STAT after a legal command (60_exceptions.md R303). -/
def statLegal : Word := 0

/-- STAT after a command that fails with error `e`: `c << 4 | 1` (60_exceptions.md R303, 30_encoding.md R104 `fail`). -/
def statError (e : CmdError) : Word := e.code <<< 4 ||| 1

/-- STAT.ERR, bit 0 (10_state.md R32). -/
def statErr (stat : Word) : Bool := stat.getLsbD 0

/-- STAT.ERRCODE, bits [6:4] (10_state.md R32). -/
def statErrcode (stat : Word) : BitVec 3 := stat.extractLsb' 4 3

/-- The reserved bits [3:1] and [31:7] of STAT (10_state.md R32). -/
def statReserved (stat : Word) : Word := stat &&& 0xFFFFFF8E

end Sys2Proof.Machine
end

