-- ==== Sys2Proof/Machine/Operands.lean ====
section
/-! DEFINITION. The bit-field and number helpers of 00_scope.md R17 and R18, and the operand forms: the wire byte of ARG0 and
the raw samples of ARG0, ARG1 and ARG2 (30_encoding.md R98). -/

namespace Sys2Proof.Machine

/-- `get(w, lo, n)` (00_scope.md R18): the `n` bits of `w` from bit `lo` up. -/
def getField (w : Byte) (lo n : Nat) : BitVec n := w.extractLsb' lo n

/-- The bits of a field of width `n` at least bit `lo` of a wire value. -/
def fieldMaskAt (lo n : Nat) : Byte := (BitVec.allOnes n).setWidth 8 <<< lo

/-- `put(w, lo, n, v)` (00_scope.md R18): bits [lo+n-1:lo] replaced by `v`, every other bit of `w` unchanged. -/
def putField {n : Nat} (w : Byte) (lo : Nat) (v : BitVec n) : Byte :=
  w &&& ~~~(fieldMaskAt lo n) ||| v.setWidth 8 <<< lo

/-- `zext_32` of a bit pattern of at most 32 bits (00_scope.md R17). -/
def zext32 {n : Nat} (v : BitVec n) : Word := v.setWidth 32

/-- A flag as a bit at place `i` of a result word. -/
def flagAt (i : Nat) (b : Bool) : Word := if b then BitVec.twoPow 32 i else 0

/-- `to_bits32` of an integer (00_scope.md R17): its 32-bit two's-complement pattern. -/
def toBits32 (i : Int) : Word := BitVec.ofInt 32 i

/-- The 32-bit pattern of a natural number (00_scope.md R17): `zext_32`, which it is exactly below 2^32; a larger number is cut
as by `trunc_32` (log 12 for the comparator's differences, log 20 for a timeout). -/
def natBits32 (n : Nat) : Word := BitVec.ofNat 32 n

/-- `sext_32` of a register (00_scope.md R17). -/
def sext32 (v : Word) : Int := v.toInt

/-- `sext_16(x[ARGa][15:0])`, a raw sample (30_encoding.md R98, 42_scaler.md R203). Bits [31:16] are ignored (R107). -/
def rawSample (arg : Word) : Int := (arg.extractLsb' 0 16).toInt

/-- `ARG0[7:0]`, the 8-bit wire value (30_encoding.md R98). Bits [31:8] are ignored (R107). -/
def wireByte (s : State) : Byte := s.arg0.extractLsb' 0 8

end Sys2Proof.Machine
end

