-- ==== Sys2Proof/Machine/Ops.lean ====
section
/-! DEFINITION. The operations over registers that the commands share: ending a command with its results or with an error
(30_encoding.md R104 to R106), the accumulator banks, the register map and a host read (20_memory.md R63), and reset
(70_reset_and_hazards.md R340). -/

namespace Sys2Proof.Machine

/-! ## How a command ends -/

/-- `fail(c)` of 30_encoding.md R104: STAT records the error and no other register changes (R105; 60_exceptions.md R303,
R305). This is all the exception entry the block has; there is no saved pc or status, no handler and no return (R305,
R306). -/
def raiseError (e : CmdError) (s : State) : State := { s with stat := statError e }

/-- The commit of a legal command (30_encoding.md R104): STAT <- 0. -/
def complete (s : State) : State := { s with stat := statLegal }

/-- A legal command's results: all four of RES0 to RES3 are written (30_encoding.md R106). -/
def writeResults (r0 r1 r2 r3 : Word) (s : State) : State := { s with res0 := r0, res1 := r1, res2 := r2, res3 := r3 }

/-- A legal command other than NOP: its results, then STAT <- 0, landing together (30_encoding.md R104, R106). -/
def finish (r0 r1 r2 r3 : Word) (s : State) : State := complete (writeResults r0 r1 r2 r3 s)

/-- A command that first makes a check: with an error it fails with that code, else it ends in `t` (30_encoding.md R104).
Both are next states: the machine goes on. -/
def checked (e : Option CmdError) (s t : State) : Host.Outcome State Fault Refusal :=
  match e with
  | some c => .next (raiseError c s)
  | none => .next t

/-! ## Accumulator banks (10_state.md R35) -/

/-- Bank `b`. -/
def bankOf (s : State) : Bank → AccBank
  | .bank0 => s.bank0
  | .bank1 => s.bank1

/-- The state with bank `b` replaced. The other bank is untouched. -/
def setBank (b : Bank) (r : AccBank) (s : State) : State :=
  match b with
  | .bank0 => { s with bank0 := r }
  | .bank1 => { s with bank1 := r }

/-- One sum of a bank with one raw sample added: `to_bits32(sext_32(acc) + sext_16(arg))` (44_selftest_compare.md R254). -/
def addSample (acc arg : Word) : Word := toBits32 (sext32 acc + rawSample arg)

/-- A bank with the sample of ARG0 to ARG2 added (44_selftest_compare.md R254). -/
def accumulate (r : AccBank) (s : State) : AccBank :=
  { x := addSample r.x s.arg0, y := addSample r.y s.arg1, z := addSample r.z s.arg2, cnt := r.cnt + 1 }

/-! ## The register map and host reads -/

/-- A register's value (00_scope.md R19 `x[NAME]`). -/
def readReg (s : State) : Reg → Word
  | .cmd => s.cmd
  | .stat => s.stat
  | .arg0 => s.arg0
  | .arg1 => s.arg1
  | .arg2 => s.arg2
  | .res0 => s.res0
  | .res1 => s.res1
  | .res2 => s.res2
  | .res3 => s.res3
  | .acc0x => s.bank0.x
  | .acc0y => s.bank0.y
  | .acc0z => s.bank0.z
  | .cnt0 => s.bank0.cnt
  | .acc1x => s.bank1.x
  | .acc1y => s.bank1.y
  | .acc1z => s.bank1.z
  | .cnt1 => s.bank1.cnt

/-- A register's byte address (10_state.md R30). -/
def regAddr : Reg → Addr
  | .cmd => 0x00
  | .stat => 0x04
  | .arg0 => 0x08
  | .arg1 => 0x0C
  | .arg2 => 0x10
  | .res0 => 0x14
  | .res1 => 0x18
  | .res2 => 0x1C
  | .res3 => 0x20
  | .acc0x => 0x24
  | .acc0y => 0x28
  | .acc0z => 0x2C
  | .cnt0 => 0x30
  | .acc1x => 0x34
  | .acc1y => 0x38
  | .acc1z => 0x3C
  | .cnt1 => 0x40

/-- All seventeen registers, by address. -/
def allRegs : List Reg :=
  [.cmd, .stat, .arg0, .arg1, .arg2, .res0, .res1, .res2, .res3, .acc0x, .acc0y, .acc0z, .cnt0, .acc1x, .acc1y, .acc1z,
    .cnt1]

/-- The register at an aligned address; none where the map has a hole (20_memory.md R61). -/
def regAt (a : Addr) : Option Reg := allRegs.find? (fun r => regAddr r == a)

/-- 20_memory.md R62: the only legal access is 4 bytes at an address whose bits [1:0] are 0. -/
def legalAccess (a : Addr) (size : Nat) : Bool := size == 4 && a.extractLsb' 0 2 == 0

/-- The value an aligned 32-bit read returns (20_memory.md R63): the register, or 0 where none is mapped (R65). -/
def wordAt (s : State) (a : Addr) : Word :=
  match regAt a with
  | some r => readReg s r
  | none => 0

/-- BusRead (20_memory.md R63): none is a bus error, which returns no data (R64). -/
def busRead (a : Addr) (size : Nat) (s : State) : Option Word :=
  if legalAccess a size then some (wordAt s a) else none

/-! ## Reset -/

/-- The reset input at a level (70_reset_and_hazards.md R340): asserting it puts every register to its reset value and runs
no command; releasing it changes no register. The parameters are no registers, and the host's program and trace are not the
block's (log 5). -/
def applyReset (asserted : Bool) (s : State) : State :=
  if asserted then { State.reset with params := s.params, program := s.program, trace := s.trace, inReset := true }
  else { s with inReset := false }

end Sys2Proof.Machine
end

