-- ==== Sys2Proof/Machine/Codec.lean ====
section
/-! DEFINITION. The register codec (41_register_codec.md): control-2, control-5 and status, over any parameter record
(00_scope.md R9, R10), and the five commands, which use the parameters of the block they run on. -/

namespace Sys2Proof.Machine

/-! ## Field encodings -/

/-- `FSENC` (41_register_codec.md R143): the special bit and the selector of a full scale. -/
def fsEnc (fsel : BitVec 3) : BitVec 1 × BitVec 2 := fsEncTable.getD fsel.toNat (0, 0)

/-- `FSDEC` (41_register_codec.md R144): the full scale and NONCANON; the special bit takes precedence. -/
def fsDec (special : BitVec 1) (sel : BitVec 2) : BitVec 3 × Bool :=
  if special = 1 then (0, sel != 0) else (sel.setWidth 3 + 1, false)

/-- `ODR_WIRE(k)` (41_register_codec.md R145). -/
def odrWire (p : Params) (k : BitVec 4) : BitVec 4 := p.codes.odrWire.getD k.toNat 0

/-- The rate index with wire code `o`, if there is one (41_register_codec.md R145, R155). -/
def odrIndex (p : Params) (o : BitVec 4) : Option Nat := p.codes.odrWire.idxOf? o

/-- The wire value of the rounding control (00_scope.md R10, 41_register_codec.md R160). -/
def rndWire (p : Params) (rnd : Bool) : BitVec 1 := if rnd then p.codes.rndOn else p.codes.rndOff

/-! ## Control-2 (41_register_codec.md R140) -/

/-- The full-scale update of C2ENC (R150). -/
def putFullScale (p : Params) (fsel : BitVec 3) (w : Byte) : Byte :=
  putField (putField w p.layout.c2Fs125 (fsEnc fsel).1) p.layout.c2Fsg (fsEnc fsel).2

/-- The rate update of C2ENC (R150). -/
def putRate (p : Params) (odrsel : BitVec 4) (w : Byte) : Byte := putField w p.layout.c2Odr (odrWire p odrsel)

/-- The byte C2ENC computes (R150). -/
def encodeControl2 (p : Params) (w : Byte) (fsel : BitVec 3) (odrsel : BitVec 4) (ufs uodr : Bool) : Byte :=
  let n := if ufs then putFullScale p fsel w else w
  if uodr then putRate p odrsel n else n

/-- The typed field-set C2DEC returns (R155). -/
structure Control2 where
  fsel : BitVec 3
  odrsel : BitVec 4
  noncanon : Bool
  odrrsv : Bool
  off : Bool
deriving DecidableEq, Repr

/-- The decode of a rate code: (ODRSEL, ODRRSV) (R155). A code that names no rate is returned raw and flagged
(92_eei_decisions.md D13). -/
def decodeRate (p : Params) (o : BitVec 4) : BitVec 4 × Bool :=
  match odrIndex p o with
  | some k => (BitVec.ofNat 4 k, false)
  | none => (o, true)

/-- The fields C2DEC finds in a control-2 byte (R155). -/
def decodeControl2 (p : Params) (w : Byte) : Control2 :=
  let fs := fsDec (getField w p.layout.c2Fs125 1) (getField w p.layout.c2Fsg 2)
  let rate := decodeRate p (getField w p.layout.c2Odr 4)
  { fsel := fs.1, odrsel := rate.1, noncanon := fs.2, odrrsv := rate.2, off := !rate.2 && rate.1 == 0 }

/-- The result layout of C2DEC (R155): [6:4] FSEL, [10:7] ODRSEL, [16] NONCANON, [17] ODRRSV, [18] OFF. -/
def packControl2 (c : Control2) : Word :=
  zext32 c.fsel <<< 4 ||| zext32 c.odrsel <<< 7 ||| flagAt 16 c.noncanon ||| flagAt 17 c.odrrsv ||| flagAt 18 c.off

/-! ## Control-5 (41_register_codec.md R141) -/

/-- The byte C5ENC computes (R160). -/
def encodeControl5 (p : Params) (w : Byte) (stsel : BitVec 2) (ust rnd urnd : Bool) : Byte :=
  let n := if ust then putField w p.layout.c5St stsel else w
  if urnd then putField n p.layout.c5Rnd (rndWire p rnd) else n

/-- The typed field-set C5DEC returns (R165). -/
structure Control5 where
  st : BitVec 2
  rnd : Bool
  strsv : Bool
  stactive : Bool
  stneg : Bool
deriving DecidableEq, Repr

/-- The fields C5DEC finds in a control-5 byte (R165). -/
def decodeControl5 (p : Params) (w : Byte) : Control5 :=
  let st := getField w p.layout.c5St 2
  { st := st
    rnd := getField w p.layout.c5Rnd 1 == p.codes.rndOn
    strsv := st == p.codes.stRsv
    stactive := st == p.codes.stPos || st == p.codes.stNeg
    stneg := st == p.codes.stNeg }

/-- The result layout of C5DEC (R165): [5:4] ST, [7] RND, [16] STRSV, [17] STACTIVE, [18] STNEG. -/
def packControl5 (c : Control5) : Word :=
  zext32 c.st <<< 4 ||| flagAt 7 c.rnd ||| flagAt 16 c.strsv ||| flagAt 17 c.stactive ||| flagAt 18 c.stneg

/-! ## Status (41_register_codec.md R142) -/

/-- The gyro-data-available bit of a status byte (R170). -/
def decodeStatus (p : Params) (w : Byte) : BitVec 1 := getField w p.layout.srGda 1

/-! ## The commands -/

/-- C2ENC (41_register_codec.md R150). -/
def execC2enc (fsel : BitVec 3) (odrsel : BitVec 4) (ufs uodr : Bool) (s : State) : Host.Outcome State Fault Refusal :=
  checked (fieldError s.params.codes (.c2enc fsel odrsel ufs uodr)) s
    (finish (zext32 (encodeControl2 s.params (wireByte s) fsel odrsel ufs uodr)) 0 0 0 s)

/-- C2DEC (41_register_codec.md R155). A wire value never causes an error. -/
def execC2dec (s : State) : Host.Outcome State Fault Refusal :=
  .next (finish (packControl2 (decodeControl2 s.params (wireByte s))) 0 0 0 s)

/-- C5ENC (41_register_codec.md R160). -/
def execC5enc (stsel : BitVec 2) (ust rnd urnd : Bool) (s : State) : Host.Outcome State Fault Refusal :=
  checked (fieldError s.params.codes (.c5enc stsel ust rnd urnd)) s
    (finish (zext32 (encodeControl5 s.params (wireByte s) stsel ust rnd urnd)) 0 0 0 s)

/-- C5DEC (41_register_codec.md R165). -/
def execC5dec (s : State) : Host.Outcome State Fault Refusal :=
  .next (finish (packControl5 (decodeControl5 s.params (wireByte s))) 0 0 0 s)

/-- STADEC (41_register_codec.md R170). -/
def execStadec (s : State) : Host.Outcome State Fault Refusal :=
  .next (finish (zext32 (decodeStatus s.params (wireByte s))) 0 0 0 s)

end Sys2Proof.Machine
end

