-- ==== Sys2Proof/Machine/Scaler.lean ====
section
/-! DEFINITION. The raw-sample scaler (42_scaler.md). -/

namespace Sys2Proof.Machine

/-- K(FSEL), in units of 1/8 mdps per LSB (42_scaler.md R201). -/
def scaleFactor (fsel : BitVec 3) : Nat := kTable.getD fsel.toNat 0

/-- `q = r * K(FSEL)`, exact (42_scaler.md R202). -/
def scaled (fsel : BitVec 3) (r : Int) : Int := r * scaleFactor fsel

/-- SCALE (42_scaler.md R205): three independent lanes, and K in RES3. -/
def execScale (fsel : BitVec 3) (s : State) : Host.Outcome State Fault Refusal :=
  checked (fieldError s.params.codes (.scale fsel)) s
    (finish (toBits32 (scaled fsel (rawSample s.arg0))) (toBits32 (scaled fsel (rawSample s.arg1)))
      (toBits32 (scaled fsel (rawSample s.arg2))) (natBits32 (scaleFactor fsel)) s)

end Sys2Proof.Machine
end

