-- ==== Sys2Proof/Machine/SelfTest.lean ====
section
/-! DEFINITION. The self-test configuration table, the accumulator banks' commands and the tolerance-window comparator
(44_selftest_compare.md). -/

namespace Sys2Proof.Machine

/-! ## The mode table (44_selftest_compare.md R240, R241) -/

/-- MODE[1] as an index: 0 is 250 dps, 1 is 2000 dps (30_encoding.md R97). -/
def modeScale (mode : BitVec 2) : Nat := (mode.extractLsb' 1 1).toNat

/-- MODE[0]: the sign is negative (30_encoding.md R97). -/
def modeNegative (mode : BitVec 2) : Bool := mode.getLsbD 0

/-- The mode's full scale (R240, R245). -/
def modeFsel (mode : BitVec 2) : BitVec 3 := selfTestFselTable.getD (modeScale mode) 0

/-- The mode's excitation code (R240, R245). -/
def modeCode (p : Params) (mode : BitVec 2) : BitVec 2 := if modeNegative mode then p.codes.stNeg else p.codes.stPos

/-- `WIN(MODE[1])`, the inclusive window in LSB (R241, R242). -/
def window (mode : BitVec 2) : Nat × Nat := windowTable.getD (modeScale mode) (0, 0)

/-- STCFG (44_selftest_compare.md R245). -/
def execStcfg (mode : BitVec 2) (s : State) : Host.Outcome State Fault Refusal :=
  .next (finish (zext32 (modeFsel mode)) (zext32 (modeCode s.params mode)) (natBits32 (window mode).1)
    (natBits32 (window mode).2) s)

/-! ## Accumulation -/

/-- ACCCLR (44_selftest_compare.md R250): the bank is empty, and the results show it. -/
def execAccclr (b : Bank) (s : State) : Host.Outcome State Fault Refusal :=
  .next (finish 0 0 0 0 (setBank b AccBank.empty s))

/-- ACCFULL's condition (44_selftest_compare.md R254): the bank holds `ACC_CNT_MAX` samples before the add. -/
def addError (r : AccBank) : Option CmdError := if r.cnt = accCntMax then some .accfull else none

/-- ACCADD (44_selftest_compare.md R254): the results are the bank's new values. -/
def execAccadd (b : Bank) (s : State) : Host.Outcome State Fault Refusal :=
  let r := accumulate (bankOf s b) s
  checked (addError (bankOf s b)) s (finish r.x r.y r.z r.cnt (setBank b r s))

/-! ## Comparison -/

/-- `D_a = |S1 * n0 - S0 * n1|`, an exact integer (44_selftest_compare.md R261, R265). -/
def difference (s0 n0 s1 n1 : Word) : Nat := (sext32 s1 * n0.toNat - sext32 s0 * n1.toNat).natAbs

/-- `p_a`: `min * n0 * n1 <= D_a <= max * n0 * n1` (44_selftest_compare.md R265). -/
def withinWindow (win : Nat × Nat) (n0 n1 : Word) (d : Nat) : Bool :=
  win.1 * n0.toNat * n1.toNat ≤ d && d ≤ win.2 * n0.toNat * n1.toNat

/-- CNTZERO's condition (44_selftest_compare.md R265): a bank is empty. -/
def compareError (b0 b1 : AccBank) : Option CmdError := if b0.cnt = 0 ∨ b1.cnt = 0 then some .cntzero else none

/-- RES0 of STCMP (44_selftest_compare.md R265): PASS, PASSX, PASSY, PASSZ at bits 0 to 3. -/
def packVerdict (px py pz : Bool) : Word :=
  flagAt 0 (px && py && pz) ||| flagAt 1 px ||| flagAt 2 py ||| flagAt 3 pz

/-- STCMP's results for two banks (44_selftest_compare.md R265), RES0 to RES3. -/
def compareBanks (win : Nat × Nat) (b0 b1 : AccBank) (s : State) : State :=
  let dx := difference b0.x b0.cnt b1.x b1.cnt
  let dy := difference b0.y b0.cnt b1.y b1.cnt
  let dz := difference b0.z b0.cnt b1.z b1.cnt
  finish
    (packVerdict (withinWindow win b0.cnt b1.cnt dx) (withinWindow win b0.cnt b1.cnt dy)
      (withinWindow win b0.cnt b1.cnt dz))
    (natBits32 dx) (natBits32 dy) (natBits32 dz) s

/-- STCMP (44_selftest_compare.md R265): the banks are not changed. -/
def execStcmp (mode : BitVec 2) (s : State) : Host.Outcome State Fault Refusal :=
  checked (compareError s.bank0 s.bank1) s (compareBanks (window mode) s.bank0 s.bank1 s)

end Sys2Proof.Machine
end

