-- ==== Sys2Proof/Machine/Timeout.lean ====
section
/-! DEFINITION. The data-ready timeout table (43_drdy_timeout.md). -/

namespace Sys2Proof.Machine

/-- `TMO(k)` in milliseconds (43_drdy_timeout.md R222). -/
def timeoutMs (p : Params) (k : BitVec 4) : Nat := p.tmo.getD k.toNat 0

/-- The derivation of a timeout from a rate in tenths of a hertz (43_drdy_timeout.md R220, R221): 1.25 sample periods in
milliseconds, rounded to nearest, with the floor, and 0 when the rate is `off`. The period is 10000 / rate ms. -/
def derivedTimeoutMs (rateTenths : Nat) : Nat :=
  if rateTenths = 0 then 0 else max timeoutFloorMs ((2 * timeoutPercent * 100 + rateTenths) / (2 * rateTenths))

/-- `DLY(k) = TMO(k) div 4 + 1` in milliseconds (43_drdy_timeout.md R223). -/
def delayMs (p : Params) (k : BitVec 4) : Nat := timeoutMs p k / delayDivisor + delayAddendMs

/-- DRDYTMO (43_drdy_timeout.md R225). DESIGN CHOICE, log 20: a timeout or a delay of 2^32 or more, which only a substituted
table could have, is cut to its low 32 bits. -/
def execDrdytmo (odrsel : BitVec 4) (s : State) : Host.Outcome State Fault Refusal :=
  checked (fieldError s.params.codes (.drdytmo odrsel)) s
    (finish (natBits32 (timeoutMs s.params odrsel)) (natBits32 (delayMs s.params odrsel)) 0 0 s)

end Sys2Proof.Machine
end

