-- ==== Sys2Proof/Machine/Dispatch.lean ====
section
/-! DEFINITION. One arm per command: the rule of the opcode (30_encoding.md R99, R104). -/

namespace Sys2Proof.Machine

/-- What a command does to the state in which CMD already holds its word (30_encoding.md R104). -/
def exec (i : Instr) (s : State) : Host.Outcome State Fault Refusal :=
  match i with
  | .nop => Sys2Proof.Machine.execNop s
  | .c2enc fsel odrsel ufs uodr => Sys2Proof.Machine.execC2enc fsel odrsel ufs uodr s
  | .c2dec => Sys2Proof.Machine.execC2dec s
  | .c5enc stsel ust rnd urnd => Sys2Proof.Machine.execC5enc stsel ust rnd urnd s
  | .c5dec => Sys2Proof.Machine.execC5dec s
  | .stadec => Sys2Proof.Machine.execStadec s
  | .scale fsel => Sys2Proof.Machine.execScale fsel s
  | .drdytmo odrsel => Sys2Proof.Machine.execDrdytmo odrsel s
  | .stcfg mode => Sys2Proof.Machine.execStcfg mode s
  | .accclr bank => Sys2Proof.Machine.execAccclr bank s
  | .accadd bank => Sys2Proof.Machine.execAccadd bank s
  | .stcmp mode => Sys2Proof.Machine.execStcmp mode s

end Sys2Proof.Machine
end

