-- ==== Sys2Proof/Machine/Bus.lean ====
section
/-! DEFINITION. The host port (20_memory.md): what one host event does. -/

namespace Sys2Proof.Machine

/-- `Execute(v)` (30_encoding.md R104), with v already in CMD: a word that spells no legal command fails with the decoder's
error, a legal one runs its rule. -/
def execute (v : Word) (s : State) : Host.Outcome State Fault Refusal :=
  match decode s.params.codes v with
  | .error e => .next (raiseError e s)
  | .ok i => exec i s

/-- An aligned 32-bit write of `v` to register `r` (20_memory.md R63): CMD stores and executes (R72), ARG0 to ARG2 store, a
read-only register ignores it (R66). -/
def writeReg (r : Reg) (v : Word) (s : State) : Host.Outcome State Fault Refusal :=
  match r with
  | .cmd => execute v { s with cmd := v }
  | .stat => .next s
  | .arg0 => .next { s with arg0 := v }
  | .arg1 => .next { s with arg1 := v }
  | .arg2 => .next { s with arg2 := v }
  | .res0 => .next s
  | .res1 => .next s
  | .res2 => .next s
  | .res3 => .next s
  | .acc0x => .next s
  | .acc0y => .next s
  | .acc0z => .next s
  | .cnt0 => .next s
  | .acc1x => .next s
  | .acc1y => .next s
  | .acc1z => .next s
  | .cnt1 => .next s

/-- BusWrite (20_memory.md R63): a bus error (R64), or a write to a register, or nothing where none is mapped (R65). -/
def busWrite (a : Addr) (size : Nat) (v : Word) (s : State) : Host.Outcome State Fault Refusal :=
  if legalAccess a size then
    match regAt a with
    | some r => writeReg r v s
    | none => .next s
  else .fault .busError

/-- A host read: the value goes to the program's read trace, the block does not change (20_memory.md R63, R67;
30_encoding.md R109). -/
def hostRead (a : Addr) (size : Nat) (s : State) : Host.Outcome State Fault Refusal :=
  match busRead a size s with
  | some v => .next { s with trace := s.trace ++ [v] }
  | none => .fault .busError

/-- What one host event does. An access while reset is asserted has no step (70_reset_and_hazards.md R342, log 5). -/
def hostEvent (e : HostEvent) (s : State) : Host.Outcome State Fault Refusal :=
  match e with
  | .read a size => if s.inReset then .fault .accessDuringReset else hostRead a size s
  | .write a size v => if s.inReset then .fault .accessDuringReset else busWrite a size v s
  | .resetInput asserted => .next (applyReset asserted s)

end Sys2Proof.Machine
end

