-- ==== Sys2Proof/Machine/Step.lean ====
section
/-! DEFINITION. One step of the machine: the next host event, or nothing when the host has none left. -/

namespace Sys2Proof.Machine

/-- The next event of the host's program happens (30_encoding.md R109; log 1). Between accesses the block is idle and holds
its registers (60_exceptions.md R315; log 4). -/
def step (s : State) : Host.Outcome State Fault Refusal :=
  match s.program with
  | [] => .next s
  | e :: rest => hostEvent e { s with program := rest }

/-- `s` with the write of the command word `w` to CMD as the host's very next event, and reset released so that the access
has a step (log 2). A command is one 32-bit word, so `nbits` plays no part (30_encoding.md R90). -/
def State.withFetchWord (s : State) (_nbits w : Nat) : State :=
  { s with program := .write 0x00 4 (BitVec.ofNat 32 w) :: s.program, inReset := false }

end Sys2Proof.Machine
end

