-- ==== Sys2Proof/Machine/Assembler.lean ====
section
/-! DEFINITION. The assembler and the host program of 30_encoding.md R108 to R110, over lines already cut into a mnemonic and
`name=value` operands (log 16). Nothing here changes what the block does (92_eei_decisions.md D29); it is how a host program
comes to be the list of events that State holds. -/

namespace Sys2Proof.Machine

/-! ## Operand tokens (30_encoding.md R108) -/

/-- `fs=`: the full scale in dps gives FSEL. -/
def fsToken (t : String) : Option (BitVec 3) :=
  [("125", 0#3), ("250", 1#3), ("500", 2#3), ("1000", 3#3), ("2000", 4#3)].lookup t

/-- `odr=`: the rate gives ODRSEL. -/
def odrToken (t : String) : Option (BitVec 4) :=
  [("off", 0#4), ("12.5", 1#4), ("26", 2#4), ("52", 3#4), ("104", 4#4), ("208", 5#4), ("416", 6#4), ("833", 7#4),
    ("1666", 8#4), ("3332", 9#4), ("6664", 10#4)].lookup t

/-- `st=`: the self-test code gives STSEL 0b00, 0b01 or 0b11, as R108 prints them (the default codes, log 9). -/
def stToken (t : String) : Option (BitVec 2) :=
  [("none", 0b00#2), ("pos", 0b01#2), ("neg", 0b11#2)].lookup t

/-- `mode=`: the self-test mode gives MODE (also R97). -/
def modeToken (t : String) : Option (BitVec 2) :=
  [("250p", 0#2), ("250n", 1#2), ("2000p", 2#2), ("2000n", 3#2)].lookup t

/-- `bank=`. -/
def bankToken (t : String) : Option Bank := [("0", Bank.bank0), ("1", Bank.bank1)].lookup t

/-- `ufs=`, `uodr=`, `ust=`, `rnd=`, `urnd=`. -/
def bitToken (t : String) : Option Bool := [("0", false), ("1", true)].lookup t

/-- One operand, in any position; an omitted one has the value 0 (R108). -/
def operand {α : Type} (ops : List (String × String)) (name : String) (zero : α) (token : String → Option α) : Option α :=
  match ops.lookup name with
  | none => some zero
  | some t => token t

/-- Every operand name is one of the command's, and none is given twice (log 16). -/
def operandNames (ops : List (String × String)) (names : List String) : Bool :=
  ops.all (fun o => names.contains o.1) && decide (ops.map Prod.fst).Nodup

/-- The `fs=` operand. -/
def fsOperand (ops : List (String × String)) : Option (BitVec 3) := operand ops "fs" 0 fsToken

/-- The `odr=` operand. -/
def odrOperand (ops : List (String × String)) : Option (BitVec 4) := operand ops "odr" 0 odrToken

/-- The `st=` operand. -/
def stOperand (ops : List (String × String)) : Option (BitVec 2) := operand ops "st" 0 stToken

/-- The `mode=` operand. -/
def modeOperand (ops : List (String × String)) : Option (BitVec 2) := operand ops "mode" 0 modeToken

/-- The `bank=` operand. -/
def bankOperand (ops : List (String × String)) : Option Bank := operand ops "bank" .bank0 bankToken

/-- A one-bit operand. -/
def bitOperand (ops : List (String × String)) (name : String) : Option Bool := operand ops name false bitToken

/-! ## Commands and pseudo-commands -/

/-- `C2SET fs, odr` (30_encoding.md R110). -/
def c2set (fsel : BitVec 3) (odrsel : BitVec 4) : Instr := .c2enc fsel odrsel true true

/-- `C2SETFS fs` (R110): the rate field is kept. -/
def c2setfs (fsel : BitVec 3) : Instr := .c2enc fsel 0 true false

/-- `C2SETODR odr` (R110): the full-scale fields are kept. -/
def c2setodr (odrsel : BitVec 4) : Instr := .c2enc 0 odrsel false true

/-- `C5SETST st` (R110): the rounding bit is kept. -/
def c5setst (stsel : BitVec 2) : Instr := .c5enc stsel true false false

/-- `C5SETRND rnd` (R110), `st=none`: the self-test field is kept. -/
def c5setrnd (rnd : Bool) : Instr := .c5enc 0b00 false rnd true

/-- A command whose operands the assembler reads from their tokens. -/
abbrev Build := List (String × String) → Option Instr

/-- The commands (R108): the names of the operands, and how the command is built from them. -/
def commandTable : List (String × List String × Build) :=
  [ ("NOP", [], fun _ => some .nop),
    ("C2ENC", ["fs", "odr", "ufs", "uodr"], fun ops => do
      some (.c2enc (← fsOperand ops) (← odrOperand ops) (← bitOperand ops "ufs") (← bitOperand ops "uodr"))),
    ("C2DEC", [], fun _ => some .c2dec),
    ("C5ENC", ["st", "ust", "rnd", "urnd"], fun ops => do
      some (.c5enc (← stOperand ops) (← bitOperand ops "ust") (← bitOperand ops "rnd") (← bitOperand ops "urnd"))),
    ("C5DEC", [], fun _ => some .c5dec),
    ("STADEC", [], fun _ => some .stadec),
    ("SCALE", ["fs"], fun ops => (fsOperand ops).map .scale),
    ("DRDYTMO", ["odr"], fun ops => (odrOperand ops).map .drdytmo),
    ("STCFG", ["mode"], fun ops => (modeOperand ops).map .stcfg),
    ("ACCCLR", ["bank"], fun ops => (bankOperand ops).map .accclr),
    ("ACCADD", ["bank"], fun ops => (bankOperand ops).map .accadd),
    ("STCMP", ["mode"], fun ops => (modeOperand ops).map .stcmp) ]

/-- The pseudo-commands (R110), in the same form. DESIGN CHOICE, log 21: R110 prints each with all its operands in one order;
here an omitted operand counts as 0 and the order is free, as R108 says of commands. -/
def pseudoTable : List (String × List String × Build) :=
  [ ("C2SET", ["fs", "odr"], fun ops => do some (c2set (← fsOperand ops) (← odrOperand ops))),
    ("C2SETFS", ["fs"], fun ops => (fsOperand ops).map c2setfs),
    ("C2SETODR", ["odr"], fun ops => (odrOperand ops).map c2setodr),
    ("C5SETST", ["st"], fun ops => (stOperand ops).map c5setst),
    ("C5SETRND", ["rnd"], fun ops => (bitOperand ops "rnd").map c5setrnd) ]

/-- The command a line spells; none when the assembler refuses it (30_encoding.md R108, R110). -/
def assemble (mnemonic : String) (ops : List (String × String)) : Option Instr :=
  match (commandTable ++ pseudoTable).lookup mnemonic with
  | none => none
  | some (names, build) => if operandNames ops names then build ops else none

/-! ## Host programs (30_encoding.md R109) -/

/-- `<reg>` of a host program line: a register name or a numeric address. -/
inductive Target where
  | reg (r : Reg)
  | addr (a : Addr)
deriving DecidableEq, Repr

/-- The address a target names. -/
def targetAddr : Target → Addr
  | .reg r => regAddr r
  | .addr a => a

/-- A line of a host program. -/
inductive HostLine where
  /-- `WR <reg>, <imm32>`. -/
  | wr (t : Target) (value : Word)
  /-- `RD <reg>`. -/
  | rd (t : Target)
  /-- `CMD <command>`. -/
  | cmd (i : Instr)
deriving DecidableEq, Repr

/-- The bus access of a line (30_encoding.md R109, R110: `CMD c` is `WR CMD, <encoding of c>`). -/
def hostLineEvent : HostLine → HostEvent
  | .wr t v => .write (targetAddr t) 4 v
  | .rd t => .read (targetAddr t) 4
  | .cmd i => .write (regAddr .cmd) 4 (encode i)

/-- A host program as the events of the state (log 2). -/
def loadProgram (lines : List HostLine) (s : State) : State := { s with program := lines.map hostLineEvent }

end Sys2Proof.Machine
end

