-- ==== Sys2Proof/Safety.lean ====
section
/-! DEFINITION. The terms that claims about the block use: its invariant (10_state.md R32, R35, R41; 70_reset_and_hazards.md
R340), the history of the samples in a bank (10_state.md R36), and which register contents a command reads (20_memory.md
R78). -/

namespace Sys2Proof.Machine

/-! ## The invariant -/

/-- 10_state.md R32, R41: reserved STAT bits are 0 and `STAT.ERR = (STAT.ERRCODE != 0)`. -/
abbrev StatWf (stat : Word) : Prop := statReserved stat = 0 ∧ statErr stat = (statErrcode stat != 0)

/-- 10_state.md R35, R36: a sum of `cnt` samples, each a signed 16-bit number. -/
abbrev SumWf (sum cnt : Word) : Prop :=
  -32768 * (cnt.toNat : Int) ≤ sext32 sum ∧ sext32 sum ≤ 32767 * (cnt.toNat : Int)

/-- 10_state.md R35: the count is at most `ACC_CNT_MAX` (so bits [31:8] are 0) and each sum is one of that many samples. -/
abbrev BankWf (r : AccBank) : Prop := r.cnt.toNat ≤ 255 ∧ SumWf r.x r.cnt ∧ SumWf r.y r.cnt ∧ SumWf r.z r.cnt

/-- Every register is 0 (70_reset_and_hazards.md R340). -/
abbrev RegistersZero (s : State) : Prop :=
  s.cmd = 0 ∧ s.stat = 0 ∧ s.arg0 = 0 ∧ s.arg1 = 0 ∧ s.arg2 = 0 ∧ s.res0 = 0 ∧ s.res1 = 0 ∧ s.res2 = 0 ∧ s.res3 = 0 ∧
  s.bank0 = AccBank.empty ∧ s.bank1 = AccBank.empty

/-- The invariant of the machine: STAT is well formed, both banks are, and while reset is asserted every register holds its
reset value. -/
abbrev Inv (s : State) : Prop :=
  StatWf s.stat ∧ BankWf s.bank0 ∧ BankWf s.bank1 ∧ (s.inReset = true → RegistersZero s)

/-! ## The samples of a bank -/

/-- One raw sample (42_scaler.md R203). -/
structure Sample where
  x : Int
  y : Int
  z : Int
deriving DecidableEq, Repr

/-- The sample that ARG0 to ARG2 hold. -/
def sampleOf (s : State) : Sample := { x := rawSample s.arg0, y := rawSample s.arg1, z := rawSample s.arg2 }

/-- The samples added to each bank since its last clear or since reset, first one first. -/
structure History where
  bank0 : List Sample
  bank1 : List Sample
deriving DecidableEq, Repr

/-- No sample in either bank. -/
def History.empty : History := { bank0 := [], bank1 := [] }

/-- The samples of bank `b`. -/
def History.samples (h : History) : Bank → List Sample
  | .bank0 => h.bank0
  | .bank1 => h.bank1

/-- The history with bank `b`'s samples replaced. -/
def History.withSamples (h : History) (b : Bank) (l : List Sample) : History :=
  match b with
  | .bank0 => { h with bank0 := l }
  | .bank1 => { h with bank1 := l }

/-- What a command does to the history: ACCCLR drops a bank's samples; ACCADD adds the sample of ARG0 to ARG2, unless the
bank already holds 255 (44_selftest_compare.md R250, R254). It speaks of commands and samples only, not of the registers
that hold the sums. -/
def historyCommand (s : State) (h : History) : Instr → History
  | .nop => h
  | .c2enc _ _ _ _ => h
  | .c2dec => h
  | .c5enc _ _ _ _ => h
  | .c5dec => h
  | .stadec => h
  | .scale _ => h
  | .drdytmo _ => h
  | .stcfg _ => h
  | .accclr b => h.withSamples b []
  | .accadd b => if (h.samples b).length < 255 then h.withSamples b (h.samples b ++ [sampleOf s]) else h
  | .stcmp _ => h

/-- What the host's next event does to the history: a 4-byte write of a legal command word to address 0 runs it, and
asserting reset drops every sample (70_reset_and_hazards.md R340). -/
def historyStep (s : State) (h : History) : History :=
  match s.program with
  | [] => h
  | .read _ _ :: _ => h
  | .resetInput asserted :: _ => if asserted then History.empty else h
  | .write a size v :: _ =>
    if a = 0 ∧ size = 4 then
      match decode s.params.codes v with
      | .ok i => historyCommand s h i
      | .error _ => h
    else h

/-- 10_state.md R36 for one bank: each sum is the sum of the samples, the count is their number, at most 255; and each sample
is a signed 16-bit number. -/
def BankHolds (r : AccBank) (l : List Sample) : Prop :=
  sext32 r.x = (l.map Sample.x).sum ∧ sext32 r.y = (l.map Sample.y).sum ∧ sext32 r.z = (l.map Sample.z).sum ∧
  r.cnt.toNat = l.length ∧ l.length ≤ 255 ∧
  ∀ q ∈ l, (-32768 ≤ q.x ∧ q.x ≤ 32767) ∧ (-32768 ≤ q.y ∧ q.y ≤ 32767) ∧ (-32768 ≤ q.z ∧ q.z ≤ 32767)

/-- 10_state.md R36 for both banks. -/
def HistoryHolds (s : State) (h : History) : Prop := BankHolds s.bank0 h.bank0 ∧ BankHolds s.bank1 h.bank1

/-! ## What a command reads -/

/-- The two states agree on the register contents a command reads (20_memory.md R78): the wire byte, the low halves of the
ARG registers, a bank. -/
def readsAgree (s t : State) : Instr → Prop
  | .nop => True
  | .c2enc _ _ _ _ => s.arg0.extractLsb' 0 8 = t.arg0.extractLsb' 0 8
  | .c2dec => s.arg0.extractLsb' 0 8 = t.arg0.extractLsb' 0 8
  | .c5enc _ _ _ _ => s.arg0.extractLsb' 0 8 = t.arg0.extractLsb' 0 8
  | .c5dec => s.arg0.extractLsb' 0 8 = t.arg0.extractLsb' 0 8
  | .stadec => s.arg0.extractLsb' 0 8 = t.arg0.extractLsb' 0 8
  | .scale _ => s.arg0.extractLsb' 0 16 = t.arg0.extractLsb' 0 16 ∧ s.arg1.extractLsb' 0 16 = t.arg1.extractLsb' 0 16 ∧
      s.arg2.extractLsb' 0 16 = t.arg2.extractLsb' 0 16
  | .drdytmo _ => True
  | .stcfg _ => True
  | .accclr _ => True
  | .accadd b => s.arg0.extractLsb' 0 16 = t.arg0.extractLsb' 0 16 ∧ s.arg1.extractLsb' 0 16 = t.arg1.extractLsb' 0 16 ∧
      s.arg2.extractLsb' 0 16 = t.arg2.extractLsb' 0 16 ∧ bankOf s b = bankOf t b
  | .stcmp _ => s.bank0 = t.bank0 ∧ s.bank1 = t.bank1

/-- The bank a command may write, if any (20_memory.md R78). -/
def bankWritten : Instr → Option Bank
  | .nop => none
  | .c2enc _ _ _ _ => none
  | .c2dec => none
  | .c5enc _ _ _ _ => none
  | .c5dec => none
  | .stadec => none
  | .scale _ => none
  | .drdytmo _ => none
  | .stcfg _ => none
  | .accclr b => some b
  | .accadd b => some b
  | .stcmp _ => none

/-! ## Lines of the assembler (30_encoding.md R108) -/

/-- A line names no other operand than these. -/
def OnlyOperands (ops : List (String × String)) (names : List String) : Prop := ∀ o ∈ ops, o.1 ∈ names

/-- What a line says of one of its command's operands, wherever it stands: it is omitted and counts as `zero`, or it is given
with a token that means `v`. -/
def OperandIs {α : Type} (ops : List (String × String)) (name : String) (zero : α) (token : String → Option α) (v : α) : Prop :=
  (name ∉ ops.map Prod.fst ∧ v = zero) ∨ ∃ t, (name, t) ∈ ops ∧ token t = some v

end Sys2Proof.Machine
end

