-- ==== Sys2Proof/Certificates/Slice0/Obligations.lean ====
section
/-! DEFINITION. The statements for the provers. Each docstring names the rules of spec/ it formalises. In a record
`{ s with … }` every field not named is unchanged, so a statement that gives the next state as such a record states the
command's whole frame: CMD, the ARG registers, both banks, the block's parameters, the host's program and trace. The
statements hold for a block with any parameters (00_scope.md R9, R10; log 9): `s.params` is the block's own record, and a
statement that needs it well formed says so. -/

open Sys2Proof Sys2Proof.Machine

/-! ## Reset (70_reset_and_hazards.md) -/

/-- R340: on reset every register takes the value 0 (so both banks are empty), and no command runs: CMD and STAT are 0 as
well, whatever CMD held. -/
def Obligations.ResetClearsEveryRegister : Prop :=
  (∀ r : Reg, readReg State.reset r = 0) ∧
  ∀ s : State, ∃ t, hostEvent (.resetInput true) s = .next t ∧ ∀ r : Reg, readReg t r = 0

/-- The model's choice of logs 5 and 9: a step that asserts reset takes the event off the host's program, leaves the rest of
it, the trace and the block's parameters as they were, and holds the block in reset. -/
def Obligations.ResetLeavesTheHost : Prop :=
  ∀ (s : State) (rest : List HostEvent), s.program = .resetInput true :: rest → ∃ t, step s = .next t ∧
    t.program = rest ∧ t.trace = s.trace ∧ t.params = s.params ∧ t.inReset = true ∧ ∀ r : Reg, readReg t r = 0

/-- R342, the model's choice of log 5: an access while reset is asserted has no step (the fault accessDuringReset), and
releasing reset lets the machine go on with every register as it was. -/
def Obligations.AccessDuringResetHasNoStep : Prop :=
  (∀ (s : State) (a : Addr) (n : Nat) (rest : List HostEvent), s.inReset = true → s.program = .read a n :: rest →
    step s = .fault .accessDuringReset) ∧
  (∀ (s : State) (a : Addr) (n : Nat) (v : Word) (rest : List HostEvent), s.inReset = true →
    s.program = .write a n v :: rest → step s = .fault .accessDuringReset) ∧
  ∀ (s : State) (rest : List HostEvent), s.program = .resetInput false :: rest →
    step s = .next { s with program := rest, inReset := false }

/-! ## The commands, one statement each -/

/-- R130: NOP clears STAT and changes no other register; its word is exactly 0, and any other word with OP = 0 is
RSVBITS. -/
def Obligations.NopOnlyClearsStat : Prop :=
  encode .nop = 0x00000000 ∧
  (∀ s : State, exec .nop s = .next { s with stat := 0 }) ∧
  ∀ (v : Word) (s : State), opField v = 0 → v ≠ 0 → execute v s = .next { s with stat := 0x21 }

/-- R150: C2ENC. The byte in RES0 has each updated field at its new value, each other field and every unrelated bit of the
byte in ARG0[7:0] as it was (R143 for the full scale, R145 for the rate); RES1 to RES3 and STAT are 0. FSEL and ODRSEL of the
word are checked whatever UFS and UODR hold. -/
def Obligations.C2encReplacesOnlyEnabledFields : Prop :=
  (∀ (f : BitVec 3) (o : BitVec 4) (uf uo : Bool),
    (encode (.c2enc f o uf uo)).toNat = 1 + 16 * f.toNat + 128 * o.toNat + 2048 * uf.toNat + 4096 * uo.toNat) ∧
  (∀ (f : BitVec 3) (o : BitVec 4) (uf uo : Bool) (s : State), s.params.layout.wf = true → f ≤ 4 → o ≤ 10 →
    ∃ n : Byte,
      exec (.c2enc f o uf uo) s = .next { s with stat := 0, res0 := n.setWidth 32, res1 := 0, res2 := 0, res3 := 0 } ∧
      getField n s.params.layout.c2Fs125 1 =
        (if uf then (fsEnc f).1 else getField (s.arg0.extractLsb' 0 8) s.params.layout.c2Fs125 1) ∧
      getField n s.params.layout.c2Fsg 2 =
        (if uf then (fsEnc f).2 else getField (s.arg0.extractLsb' 0 8) s.params.layout.c2Fsg 2) ∧
      getField n s.params.layout.c2Odr 4 =
        (if uo then odrWire s.params o else getField (s.arg0.extractLsb' 0 8) s.params.layout.c2Odr 4) ∧
      ∀ i, i < 8 → s.params.layout.c2Unrelated i = true → n.getLsbD i = s.arg0.getLsbD i) ∧
  (∀ (v : Word) (s : State), opField v = 1 → v >>> 13 = 0 → 4 < fselField v → execute v s = .next { s with stat := 0x31 }) ∧
  (∀ (v : Word) (s : State), opField v = 1 → v >>> 13 = 0 → fselField v ≤ 4 → 10 < odrselField v →
    execute v s = .next { s with stat := 0x41 }) ∧
  ∀ (v : Word) (s : State), opField v = 1 → v >>> 13 ≠ 0 → execute v s = .next { s with stat := 0x21 }

/-- R155: C2DEC. RES0 holds FSEL (R144), ODRSEL, NONCANON, ODRRSV and OFF of the byte in ARG0[7:0], every other bit 0;
RES1 to RES3 and STAT are 0. No byte is an error. -/
def Obligations.C2decReturnsTheFieldSet : Prop :=
  encode .c2dec = 0x00000002 ∧
  (∀ s : State, s.params.codes.wf = true → ∃ r : Word,
    exec .c2dec s = .next { s with stat := 0, res0 := r, res1 := 0, res2 := 0, res3 := 0 } ∧
    (getField (s.arg0.extractLsb' 0 8) s.params.layout.c2Fs125 1 = 1 →
      fselField r = 0 ∧ r.getLsbD 16 = (getField (s.arg0.extractLsb' 0 8) s.params.layout.c2Fsg 2 != 0)) ∧
    (getField (s.arg0.extractLsb' 0 8) s.params.layout.c2Fs125 1 = 0 →
      (fselField r).toNat = (getField (s.arg0.extractLsb' 0 8) s.params.layout.c2Fsg 2).toNat + 1 ∧ r.getLsbD 16 = false) ∧
    (∀ k : BitVec 4, k ≤ 10 → odrWire s.params k = getField (s.arg0.extractLsb' 0 8) s.params.layout.c2Odr 4 →
      odrselField r = k ∧ r.getLsbD 17 = false ∧ r.getLsbD 18 = (k == 0)) ∧
    ((∀ k : BitVec 4, k ≤ 10 → odrWire s.params k ≠ getField (s.arg0.extractLsb' 0 8) s.params.layout.c2Odr 4) →
      odrselField r = getField (s.arg0.extractLsb' 0 8) s.params.layout.c2Odr 4 ∧ r.getLsbD 17 = true ∧
      r.getLsbD 18 = false) ∧
    ∀ i, i < 4 ∨ (11 ≤ i ∧ i < 16) ∨ 19 ≤ i → r.getLsbD i = false) ∧
  ∀ (v : Word) (s : State), opField v = 2 → v ≠ 2 → execute v s = .next { s with stat := 0x21 }

/-- R160: C5ENC. The byte in RES0 has the self-test field at STSEL when UST, the rounding bit at `RND_ON` or `RND_OFF` when
URND, and everything else of ARG0[7:0] as it was; RES1 to RES3 and STAT are 0. A word with `ST_RSV` is refused
whatever UST holds. -/
def Obligations.C5encReplacesOnlyEnabledFields : Prop :=
  (∀ (st : BitVec 2) (us rn ur : Bool),
    (encode (.c5enc st us rn ur)).toNat = 3 + 16 * st.toNat + 64 * us.toNat + 128 * rn.toNat + 256 * ur.toNat) ∧
  (∀ (st : BitVec 2) (us rn ur : Bool) (s : State), s.params.layout.wf = true → st ≠ s.params.codes.stRsv →
    ∃ n : Byte,
      exec (.c5enc st us rn ur) s = .next { s with stat := 0, res0 := n.setWidth 32, res1 := 0, res2 := 0, res3 := 0 } ∧
      getField n s.params.layout.c5St 2 = (if us then st else getField (s.arg0.extractLsb' 0 8) s.params.layout.c5St 2) ∧
      getField n s.params.layout.c5Rnd 1 =
        (if ur then (if rn then s.params.codes.rndOn else s.params.codes.rndOff)
         else getField (s.arg0.extractLsb' 0 8) s.params.layout.c5Rnd 1) ∧
      ∀ i, i < 8 → s.params.layout.c5Unrelated i = true → n.getLsbD i = s.arg0.getLsbD i) ∧
  (∀ (v : Word) (s : State), opField v = 3 → v >>> 9 = 0 → stselField v = s.params.codes.stRsv →
    execute v s = .next { s with stat := 0x51 }) ∧
  ∀ (v : Word) (s : State), opField v = 3 → v >>> 9 ≠ 0 → execute v s = .next { s with stat := 0x21 }

/-- R165: C5DEC. RES0 holds ST, RND, STRSV, STACTIVE and STNEG of the byte in ARG0[7:0], every other bit 0; RES1 to RES3 and
STAT are 0. No byte is an error. -/
def Obligations.C5decReturnsTheFieldSet : Prop :=
  encode .c5dec = 0x00000004 ∧
  (∀ s : State, ∃ r : Word,
    exec .c5dec s = .next { s with stat := 0, res0 := r, res1 := 0, res2 := 0, res3 := 0 } ∧
    stselField r = getField (s.arg0.extractLsb' 0 8) s.params.layout.c5St 2 ∧
    r.getLsbD 7 = (getField (s.arg0.extractLsb' 0 8) s.params.layout.c5Rnd 1 == s.params.codes.rndOn) ∧
    r.getLsbD 16 = (stselField r == s.params.codes.stRsv) ∧
    r.getLsbD 17 = (stselField r == s.params.codes.stPos || stselField r == s.params.codes.stNeg) ∧
    r.getLsbD 18 = (stselField r == s.params.codes.stNeg) ∧
    ∀ i, i < 4 ∨ i = 6 ∨ (8 ≤ i ∧ i < 16) ∨ 19 ≤ i → r.getLsbD i = false) ∧
  ∀ (v : Word) (s : State), opField v = 4 → v ≠ 4 → execute v s = .next { s with stat := 0x21 }

/-- R170: STADEC. RES0 is the gyro-data-available bit of ARG0[7:0]; every other bit of the byte is ignored. -/
def Obligations.StadecReturnsDataReady : Prop :=
  encode .stadec = 0x00000005 ∧
  (∀ s : State, s.params.layout.wf = true → exec .stadec s = .next
    { s with stat := 0, res0 := if s.arg0.getLsbD s.params.layout.srGda then 1 else 0, res1 := 0, res2 := 0, res3 := 0 }) ∧
  ∀ (v : Word) (s : State), opField v = 5 → v ≠ 5 → execute v s = .next { s with stat := 0x21 }

/-- R205: SCALE. Each of RES0 to RES2 is its raw sample times 35 * 2^FSEL, RES3 is that factor; STAT is 0. -/
def Obligations.ScaleMultipliesEachLane : Prop :=
  (∀ f : BitVec 3, (encode (.scale f)).toNat = 6 + 16 * f.toNat) ∧
  (∀ (f : BitVec 3) (s : State), f ≤ 4 → exec (.scale f) s = .next
    { s with
      stat := 0
      res0 := BitVec.ofInt 32 ((s.arg0.extractLsb' 0 16).toInt * (35 * 2 ^ f.toNat))
      res1 := BitVec.ofInt 32 ((s.arg1.extractLsb' 0 16).toInt * (35 * 2 ^ f.toNat))
      res2 := BitVec.ofInt 32 ((s.arg2.extractLsb' 0 16).toInt * (35 * 2 ^ f.toNat))
      res3 := BitVec.ofNat 32 (35 * 2 ^ f.toNat) }) ∧
  (∀ (v : Word) (s : State), opField v = 6 → v >>> 7 = 0 → 4 < fselField v → execute v s = .next { s with stat := 0x31 }) ∧
  ∀ (v : Word) (s : State), opField v = 6 → v >>> 7 ≠ 0 → execute v s = .next { s with stat := 0x21 }

/-- R225: DRDYTMO. RES0 is TMO(k) of the block's table and RES1 is TMO(k) div 4 + 1; RES2, RES3 and STAT are 0. The third
clause, that a well-formed record has a timeout for each of the eleven rates, is the model's choice of log 10 (DEDUCED from
the eleven entries of R222's table) and not R225's words; and that the second clause, for a timeout or a delay of 2^32 or
more, gives its low 32 bits is the model's choice of log 20. -/
def Obligations.DrdytmoReturnsTimeoutAndDelay : Prop :=
  (∀ o : BitVec 4, (encode (.drdytmo o)).toNat = 7 + 128 * o.toNat) ∧
  (∀ (o : BitVec 4) (s : State) (t : Nat), o ≤ 10 → s.params.tmo[o.toNat]? = some t → exec (.drdytmo o) s = .next
    { s with stat := 0, res0 := BitVec.ofNat 32 t, res1 := BitVec.ofNat 32 (t / 4 + 1), res2 := 0, res3 := 0 }) ∧
  (∀ (o : BitVec 4) (s : State), s.params.wf = true → o ≤ 10 → ∃ t, s.params.tmo[o.toNat]? = some t) ∧
  (∀ (v : Word) (s : State), opField v = 7 → v &&& 0xFFFFF870 = 0 → 10 < odrselField v →
    execute v s = .next { s with stat := 0x41 }) ∧
  ∀ (v : Word) (s : State), opField v = 7 → v &&& 0xFFFFF870 ≠ 0 → execute v s = .next { s with stat := 0x21 }

/-- R245: STCFG. RES0 is the mode's FSEL, RES1 its excitation code, RES2 and RES3 its window; STAT is 0. -/
def Obligations.StcfgReturnsTheModeTable : Prop :=
  (∀ m : BitVec 2, (encode (.stcfg m)).toNat = 8 + 16 * m.toNat) ∧
  (∀ (m : BitVec 2) (s : State), exec (.stcfg m) s = .next
    { s with
      stat := 0
      res0 := if m.getLsbD 1 then 4 else 1
      res1 := (if m.getLsbD 0 then s.params.codes.stNeg else s.params.codes.stPos).setWidth 32
      res2 := if m.getLsbD 1 then 150 else 20
      res3 := if m.getLsbD 1 then 700 else 80 }) ∧
  ∀ (v : Word) (s : State), opField v = 8 → v >>> 6 ≠ 0 → execute v s = .next { s with stat := 0x21 }

/-- R250: ACCCLR. The bank named is empty, the other is unchanged, RES0 to RES3 and STAT are 0. -/
def Obligations.AccclrEmptiesOneBank : Prop :=
  encode (.accclr .bank0) = 0x00000009 ∧ encode (.accclr .bank1) = 0x00000019 ∧
  (∀ s : State, exec (.accclr .bank0) s = .next
    { s with stat := 0, res0 := 0, res1 := 0, res2 := 0, res3 := 0, bank0 := { x := 0, y := 0, z := 0, cnt := 0 } }) ∧
  (∀ s : State, exec (.accclr .bank1) s = .next
    { s with stat := 0, res0 := 0, res1 := 0, res2 := 0, res3 := 0, bank1 := { x := 0, y := 0, z := 0, cnt := 0 } }) ∧
  ∀ (v : Word) (s : State), opField v = 9 → v >>> 5 ≠ 0 → execute v s = .next { s with stat := 0x21 }

/-- R254: ACCADD. Each sum of the bank gains its raw sample and the count one; RES0 to RES3 are the bank's new values; the
other bank is unchanged. A bank of 255 samples gives ACCFULL and stays as it was. -/
def Obligations.AccaddAddsOneSample : Prop :=
  encode (.accadd .bank0) = 0x0000000A ∧ encode (.accadd .bank1) = 0x0000001A ∧
  (∀ (b : Bank) (s : State), (bankOf s b).cnt ≠ 255 → ∃ t,
    exec (.accadd b) s = .next t ∧
    (bankOf t b).x = BitVec.ofInt 32 ((bankOf s b).x.toInt + (s.arg0.extractLsb' 0 16).toInt) ∧
    (bankOf t b).y = BitVec.ofInt 32 ((bankOf s b).y.toInt + (s.arg1.extractLsb' 0 16).toInt) ∧
    (bankOf t b).z = BitVec.ofInt 32 ((bankOf s b).z.toInt + (s.arg2.extractLsb' 0 16).toInt) ∧
    (bankOf t b).cnt = (bankOf s b).cnt + 1 ∧
    bankOf t b.other = bankOf s b.other ∧
    t = { s with
      stat := 0
      res0 := (bankOf t b).x
      res1 := (bankOf t b).y
      res2 := (bankOf t b).z
      res3 := (bankOf t b).cnt
      bank0 := t.bank0
      bank1 := t.bank1 }) ∧
  (∀ (b : Bank) (s : State), (bankOf s b).cnt = 255 → exec (.accadd b) s = .next { s with stat := 0x61 }) ∧
  ∀ (v : Word) (s : State), opField v = 10 → v >>> 5 ≠ 0 → execute v s = .next { s with stat := 0x21 }

/-- R265: STCMP. With both banks non-empty, RES1 to RES3 are D_X, D_Y and D_Z and RES0 holds PASS, PASSX, PASSY and PASSZ of
the mode's window, every other bit 0; the banks are unchanged and STAT is 0. With an empty bank it is CNTZERO. -/
def Obligations.StcmpComparesTheBanks : Prop :=
  (∀ m : BitVec 2, (encode (.stcmp m)).toNat = 11 + 16 * m.toNat) ∧
  (∀ (m : BitVec 2) (s : State) (n0 n1 lo hi dx dy dz : Nat),
    n0 = s.bank0.cnt.toNat → n1 = s.bank1.cnt.toNat → n0 ≠ 0 → n1 ≠ 0 →
    lo = (if m.getLsbD 1 then 150 else 20) → hi = (if m.getLsbD 1 then 700 else 80) →
    dx = (s.bank1.x.toInt * n0 - s.bank0.x.toInt * n1).natAbs →
    dy = (s.bank1.y.toInt * n0 - s.bank0.y.toInt * n1).natAbs →
    dz = (s.bank1.z.toInt * n0 - s.bank0.z.toInt * n1).natAbs →
    ∃ r : Word,
      exec (.stcmp m) s = .next
        { s with
          stat := 0
          res0 := r
          res1 := BitVec.ofNat 32 dx
          res2 := BitVec.ofNat 32 dy
          res3 := BitVec.ofNat 32 dz } ∧
      (r.getLsbD 1 = true ↔ lo * n0 * n1 ≤ dx ∧ dx ≤ hi * n0 * n1) ∧
      (r.getLsbD 2 = true ↔ lo * n0 * n1 ≤ dy ∧ dy ≤ hi * n0 * n1) ∧
      (r.getLsbD 3 = true ↔ lo * n0 * n1 ≤ dz ∧ dz ≤ hi * n0 * n1) ∧
      r.getLsbD 0 = (r.getLsbD 1 && r.getLsbD 2 && r.getLsbD 3) ∧
      ∀ i, 4 ≤ i → r.getLsbD i = false) ∧
  (∀ (m : BitVec 2) (s : State), s.bank0.cnt = 0 ∨ s.bank1.cnt = 0 → exec (.stcmp m) s = .next { s with stat := 0x71 }) ∧
  ∀ (v : Word) (s : State), opField v = 11 → v >>> 6 ≠ 0 → execute v s = .next { s with stat := 0x21 }

/-! ## How every command runs (30_encoding.md, 60_exceptions.md, 20_memory.md) -/

/-- R104, R302: a write of CMD stores the word and executes it. The checks on the raw bits of the word, in their order; the
first that fails decides STAT and is the only effect. A word that passes runs its opcode's rule, which ends with STAT 0, or
with ACCFULL for ACCADD, or with CNTZERO for STCMP. -/
def Obligations.ExecuteChecksInOrder : Prop :=
  ∀ (v : Word) (s : State) (op : Nat) (fm : Word), op = v.toNat % 16 →
    fm = ([0, 0x1FF0, 0, 0x1F0, 0, 0, 0x70, 0x780, 0x30, 0x10, 0x10, 0x30].getD op 0 : Word) →
    busWrite 0x00 4 v s = execute v { s with cmd := v } ∧
    (if 12 ≤ op then execute v s = .next { s with stat := 0x11 }
     else if v &&& 0xFFFFFFF0 &&& ~~~fm ≠ 0 then execute v s = .next { s with stat := 0x21 }
     else if (op = 1 ∨ op = 6) ∧ 4 < v.toNat / 16 % 8 then execute v s = .next { s with stat := 0x31 }
     else if (op = 1 ∨ op = 7) ∧ 10 < v.toNat / 128 % 16 then execute v s = .next { s with stat := 0x41 }
     else if op = 3 ∧ v.toNat / 16 % 4 = s.params.codes.stRsv.toNat then execute v s = .next { s with stat := 0x51 }
     else ∃ i, i.opcode.toNat = op ∧ encode i = v ∧ execute v s = exec i s ∧
       ((∃ t, exec i s = .next t ∧ t.stat = 0) ∨
        (op = 10 ∧ exec i s = .next { s with stat := 0x61 }) ∨
        (op = 11 ∧ exec i s = .next { s with stat := 0x71 })))

/-- R102: a reserved opcode is RSVOP whatever the other bits hold, and nothing but STAT changes. -/
def Obligations.ReservedOpcodesAreRsvop : Prop :=
  ∀ (v : Word) (s : State), opField v = 0xC ∨ opField v = 0xD ∨ opField v = 0xE ∨ opField v = 0xF →
    decode s.params.codes v = .error .rsvop ∧ execute v s = .next { s with stat := 0x11 }

/-- R303: every command writes STAT: a word that fails with code c leaves c * 16 + 1 and changes nothing else, a legal one
leaves 0, and what a command leaves does not depend on the STAT before it. ACCADD on a bank of 255 samples fails with 6 and
STCMP with an empty bank fails with 7; no other decoded command fails. A bus error is no command and has no next state. -/
def Obligations.StatDescribesTheLastCommand : Prop :=
  (∀ (v w : Word) (s : State), execute v { s with stat := w } = execute v s) ∧
  (∀ (v : Word) (s : State) (e : CmdError), decode s.params.codes v = .error e →
    execute v s = .next { s with stat := BitVec.ofNat 32 (16 * e.code.toNat + 1) }) ∧
  (∀ (v : Word) (s : State) (i : Instr), decode s.params.codes v = .ok i → ∃ t, execute v s = .next t ∧
    (∀ b, i = .accadd b → (bankOf s b).cnt = 255 → t = { s with stat := 0x61 }) ∧
    (∀ m, i = .stcmp m → s.bank0.cnt = 0 ∨ s.bank1.cnt = 0 → t = { s with stat := 0x71 }) ∧
    ((∀ b, i = .accadd b → (bankOf s b).cnt ≠ 255) → (∀ m, i = .stcmp m → s.bank0.cnt ≠ 0 ∧ s.bank1.cnt ≠ 0) →
      t.stat = 0)) ∧
  ∀ (a : Addr) (n : Nat) (v : Word) (s : State), n ≠ 4 ∨ a.toNat % 4 ≠ 0 → busWrite a n v s = .fault .busError

/-- R105: a write of CMD that ends in an error changes CMD and STAT and nothing else. -/
def Obligations.FailedCommandChangesOnlyStat : Prop :=
  ∀ (v : Word) (s t : State), busWrite 0x00 4 v s = .next t → t.stat ≠ 0 → t = { s with cmd := v, stat := t.stat }

/-- R106: a legal command other than NOP writes all four RES registers: what it leaves in the machine does not depend on
the old results. The results a command's rule does not define are 0. -/
def Obligations.LegalCommandWritesAllResults : Prop :=
  (∀ (i : Instr) (s t : State) (a b c d : Word), i ≠ .nop → exec i s = .next t → t.stat = 0 →
    exec i { s with res0 := a, res1 := b, res2 := c, res3 := d } = .next t) ∧
  (∀ (i : Instr) (s t : State), i.opcode = 1 ∨ i.opcode = 2 ∨ i.opcode = 3 ∨ i.opcode = 4 ∨ i.opcode = 5 →
    exec i s = .next t → t.stat = 0 → t.res1 = 0 ∧ t.res2 = 0 ∧ t.res3 = 0) ∧
  ∀ (o : BitVec 4) (s t : State), exec (.drdytmo o) s = .next t → t.stat = 0 → t.res2 = 0 ∧ t.res3 = 0

/-- R78: what a command may write. Every command goes on; CMD, the ARG registers, the block's parameters, the host's program,
its trace and the reset input stay, and so does every bank but the one that ACCCLR or ACCADD names. -/
def Obligations.CommandWritesOnlyItsRegisters : Prop :=
  ∀ (i : Instr) (s : State), ∃ t, exec i s = .next t ∧
    t.cmd = s.cmd ∧ t.arg0 = s.arg0 ∧ t.arg1 = s.arg1 ∧ t.arg2 = s.arg2 ∧
    t.params = s.params ∧ t.program = s.program ∧ t.trace = s.trace ∧ t.inReset = s.inReset ∧
    (∀ b, bankWritten i ≠ some b → bankOf t b = bankOf s b) ∧
    (i = .nop → t.res0 = s.res0 ∧ t.res1 = s.res1 ∧ t.res2 = s.res2 ∧ t.res3 = s.res3)

/-- R78 and R105 seen from the host port, for every address the command does not write: after a write of CMD an aligned read
of it returns what it returned before. A command that fails (the decoder's errors, ACCFULL, CNTZERO) and NOP write CMD and
STAT; any other command writes also RES0 to RES3 and, for ACCCLR and ACCADD, the named bank's four registers. -/
def Obligations.CommandKeepsOtherAddresses : Prop :=
  ∀ (v : Word) (s : State), ∃ t, busWrite 0x00 4 v s = .next t ∧
    ∀ a : Addr, a ≠ 0x00 → a ≠ 0x04 →
      (t.stat ≠ 0 ∨ decode s.params.codes v = .ok .nop → busRead a 4 t = busRead a 4 s) ∧
      ∀ i, decode s.params.codes v = .ok i → ¬(0x14 ≤ a ∧ a ≤ 0x20) →
        (bankWritten i = some .bank0 → ¬(0x24 ≤ a ∧ a ≤ 0x30)) → (bankWritten i = some .bank1 → ¬(0x34 ≤ a ∧ a ≤ 0x40)) →
        busRead a 4 t = busRead a 4 s

/-- The model's choice of log 13: run directly on a term whose field values are illegal, a command ends in the error that the
decoder gives its word. No step runs such a term. -/
def Obligations.IllegalFieldsFailDirectly : Prop :=
  ∀ (i : Instr) (s : State) (e : CmdError), fieldError s.params.codes i = some e →
    exec i s = .next { s with stat := BitVec.ofNat 32 (16 * e.code.toNat + 1) } ∧
    decode s.params.codes (encode i) = .error e

/-- R107: a command reads only the register contents R78 names. In two states of the same block (with the same parameters)
that agree on those, it leaves the same STAT, the same results when it is legal and not NOP, and the same contents in the bank
it writes; no other bit matters. -/
def Obligations.CommandReadsOnlyItsOperands : Prop :=
  ∀ (i : Instr) (s s' : State), s.params = s'.params → readsAgree s s' i →
    ∃ t t', exec i s = .next t ∧ exec i s' = .next t' ∧ t.stat = t'.stat ∧
    (t.stat = 0 → i ≠ .nop → t.res0 = t'.res0 ∧ t.res1 = t'.res1 ∧ t.res2 = t'.res2 ∧ t.res3 = t'.res3) ∧
    ∀ b, bankWritten i = some b → bankOf t b = bankOf t' b

/-! ## The host port (20_memory.md) -/

/-- R63, R65, R66: a misaligned access or one of another size is a bus error; an aligned 4-byte read returns the register at
the address, or 0 above 0x40; an aligned 4-byte write stores and executes at 0x00, stores at 0x08, 0x0C and 0x10, and has no
effect anywhere else. -/
def Obligations.BusAccessFollowsTheMap : Prop :=
  (∀ (a : Addr) (n : Nat) (v : Word) (s : State), n ≠ 4 ∨ a.toNat % 4 ≠ 0 →
    busRead a n s = none ∧ busWrite a n v s = .fault .busError) ∧
  (∀ (a : Addr) (s : State), a.toNat % 4 = 0 → a.toNat ≤ 0x40 →
    ∃ r, [Reg.cmd, .stat, .arg0, .arg1, .arg2, .res0, .res1, .res2, .res3, .acc0x, .acc0y, .acc0z, .cnt0, .acc1x, .acc1y,
      .acc1z, .cnt1][a.toNat / 4]? = some r ∧ busRead a 4 s = some (readReg s r)) ∧
  (∀ (a : Addr) (s : State), a.toNat % 4 = 0 → 0x40 < a.toNat → busRead a 4 s = some 0) ∧
  ∀ (a : Addr) (v : Word) (s : State), a.toNat % 4 = 0 →
    if a = 0x00 then busWrite a 4 v s = execute v { s with cmd := v }
    else if a = 0x08 then busWrite a 4 v s = .next { s with arg0 := v }
    else if a = 0x0C then busWrite a 4 v s = .next { s with arg1 := v }
    else if a = 0x10 then busWrite a 4 v s = .next { s with arg2 := v }
    else busWrite a 4 v s = .next s

/-- R64: a misaligned access, or one of a size other than 4 bytes, is a bus error: the run stops there, for a read and for a
write. -/
def Obligations.IllegalAccessIsBusError : Prop :=
  ∀ (s : State) (a : Addr) (n : Nat) (rest : List HostEvent), a.toNat % 4 ≠ 0 ∨ n ≠ 4 → s.inReset = false →
    (s.program = .read a n :: rest → step s = .fault .busError) ∧
    (∀ v, s.program = .write a n v :: rest → step s = .fault .busError)

/-- R67: a read changes nothing but the host's trace, to which it appends its value (R109; the trace's form is the model's
choice, log 3), so it may be repeated; and a repeated write of the same command word changes nothing more, but for ACCADD. -/
def Obligations.ReadsAndRepeatedWritesAreIdempotent : Prop :=
  (∀ (a : Addr) (s : State), a.toNat % 4 = 0 → ∃ v,
    hostRead a 4 s = .next { s with trace := s.trace ++ [v] } ∧ busRead a 4 s = some v ∧
    busRead a 4 { s with trace := s.trace ++ [v] } = some v) ∧
  ∀ (v : Word) (s t : State), (∀ b, decode s.params.codes v ≠ .ok (.accadd b)) → busWrite 0x00 4 v s = .next t →
    busWrite 0x00 4 v t = .next t

/-- R31: a write of CMD stores the word, legal or not, every bit of it, and executes it; a read returns the last word
written, or 0 after reset; no command and no access to another address writes CMD. -/
def Obligations.CmdHoldsTheLastWord : Prop :=
  (∀ (v : Word) (s : State), ∃ t, busWrite 0x00 4 v s = .next t ∧ execute v { s with cmd := v } = .next t ∧
    busRead 0x00 4 t = some v) ∧
  busRead 0x00 4 State.reset = some 0 ∧
  (∀ (a : Addr) (n : Nat) (v : Word) (s t : State), a ≠ 0x00 → busWrite a n v s = .next t → t.cmd = s.cmd) ∧
  (∀ (a : Addr) (n : Nat) (s t : State), hostRead a n s = .next t → t.cmd = s.cmd) ∧
  ∀ (i : Instr) (s t : State), exec i s = .next t → t.cmd = s.cmd

/-! ## Invariants -/

/-- The state right after reset meets the machine's invariant. -/
def Obligations.InvariantHoldsAtReset : Prop := Inv State.reset

/-- R32, R35, R41: every step keeps the invariant: STAT.ERR says whether STAT.ERRCODE is not 0 and the reserved bits of STAT
are 0; each bank's count is at most 255 and its sums are sums of that many 16-bit samples; while reset is asserted every
register is 0 (R340, R342; that the reset input is held as a level is the model's choice, log 5). -/
def Obligations.StepKeepsTheInvariant : Prop := ∀ s t : State, Inv s → step s = .next t → Inv t

/-- R9, with the model's choice of log 9 that the parameters stand in State: every step keeps them, so a run of a block is a
run with one record; the record at reset is well formed, so the statements that ask for one speak of the states that follow. -/
def Obligations.StepKeepsTheParameters : Prop :=
  State.reset.params.wf = true ∧ ∀ s t : State, step s = .next t → t.params = s.params

/-- Right after reset both banks hold the sum of no samples. -/
def Obligations.HistoryHoldsAtReset : Prop := HistoryHolds State.reset History.empty

/-- R36: the banks hold exactly the sums and the number of the samples added since each bank's last clear or since reset;
every step keeps this, with the history of the samples moved on by what the host's event says. -/
def Obligations.StepKeepsTheSampleHistory : Prop :=
  ∀ (s t : State) (h : History), HistoryHolds s h → step s = .next t → HistoryHolds t (historyStep s h)

/-! ## Encoding (30_encoding.md) -/

/-- R111: every well-formed command's word decodes to that command, whatever the block's codes. -/
def Obligations.DecodeInvertsEncode : Prop :=
  ∀ (c : Codes) (i : Instr), WellFormed c i = true → decode c (encode i) = .ok i

/-- Each legal word has one meaning, and it is the only word of that meaning: what the decoder answers encodes to the word
it was read from, and is well formed. -/
def Obligations.EncodeInvertsDecode : Prop :=
  ∀ (c : Codes) (v : Word) (i : Instr), decode c v = .ok i → encode i = v ∧ WellFormed c i = true

/-- R99: the map has the twelve rows of the printed table. A word selects a row of the opcode map when it matches under the
row's mask, which says that OP is the row's and no reserved bit of its format is set; at most one row matches; a legal word
matches its command's row; a word that matches none is RSVOP or RSVBITS. -/
def Obligations.OpcodeMapSelectsOneRow : Prop :=
  opcodeMap.map (fun r => (r.mnemonic, r.pattern, r.mask)) =
    [("NOP", 0x00000000, 0xFFFFFFFF), ("C2ENC", 0x00000001, 0xFFFFE00F), ("C2DEC", 0x00000002, 0xFFFFFFFF),
     ("C5ENC", 0x00000003, 0xFFFFFE0F), ("C5DEC", 0x00000004, 0xFFFFFFFF), ("STADEC", 0x00000005, 0xFFFFFFFF),
     ("SCALE", 0x00000006, 0xFFFFFF8F), ("DRDYTMO", 0x00000007, 0xFFFFF87F), ("STCFG", 0x00000008, 0xFFFFFFCF),
     ("ACCCLR", 0x00000009, 0xFFFFFFEF), ("ACCADD", 0x0000000A, 0xFFFFFFEF), ("STCMP", 0x0000000B, 0xFFFFFFCF)] ∧
  (∀ (v : Word) (r : OpcodeRow), r ∈ opcodeMap →
    (r.selects v = true ↔ opField v = r.op ∧ v &&& 0xFFFFFFF0 &&& ~~~r.format.fieldMask = 0)) ∧
  (∀ (v : Word) (r r' : OpcodeRow), r ∈ opcodeMap → r' ∈ opcodeMap → r.selects v = true → r'.selects v = true → r = r') ∧
  (∀ (c : Codes) (v : Word) (i : Instr), decode c v = .ok i →
    ∃ r ∈ opcodeMap, r.selects v = true ∧ r.op = i.opcode ∧ r.format = i.format) ∧
  ∀ (c : Codes) (v : Word), (∀ r ∈ opcodeMap, r.selects v = false) →
    decode c v = .error .rsvop ∨ decode c v = .error .rsvbits

/-- The words that R111 prints, and one word of each other format, decode to the commands they stand for. -/
def Obligations.PrintedWordsDecode : Prop :=
  (decode defaultCodes 0x00001A21 = .ok (.c2enc 2 4 true true) ∧
   decode defaultCodes 0x00000053 = .ok (.c5enc 1 true false false) ∧
   decode defaultCodes 0x00000046 = .ok (.scale 4) ∧ decode defaultCodes 0x00000387 = .ok (.drdytmo 7) ∧
   decode defaultCodes 0x0000000B = .ok (.stcmp 0)) ∧
  (decode defaultCodes 0x00000000 = .ok .nop ∧ decode defaultCodes 0x00000019 = .ok (.accclr .bank1) ∧
   decode defaultCodes 0x00000038 = .ok (.stcfg 3)) ∧
  (decode defaultCodes 0x001007F1 = .error .rsvbits ∧ decode defaultCodes 0x000007F1 = .error .badfs)

/-! ## A step -/

/-- R72, R104: when the host's next event is a 4-byte write of `v` to CMD outside reset, the step stores `v` in CMD and runs
the command `v` decodes to, with the event taken off the host's program; a word that decodes to none fails with its error.
That the host's program is a list in State is the model's choice of log 1, and the last clause, on withFetchWord (which puts
the write first and releases reset), is its choice of log 2. -/
def Obligations.StepRunsTheDecodedCommand : Prop :=
  (∀ (s : State) (v : Word) (rest : List HostEvent) (i : Instr), s.inReset = false →
    s.program = .write 0x00 4 v :: rest → decode s.params.codes v = .ok i →
    step s = exec i { s with program := rest, cmd := v }) ∧
  (∀ (s : State) (v : Word) (rest : List HostEvent) (e : CmdError), s.inReset = false →
    s.program = .write 0x00 4 v :: rest → decode s.params.codes v = .error e →
    step s = .next { s with program := rest, cmd := v, stat := e.code <<< 4 ||| 1 }) ∧
  ∀ (s : State) (w : Nat) (i : Instr), decode s.params.codes (BitVec.ofNat 32 w) = .ok i →
    step (s.withFetchWord 32 w) = exec i { s with cmd := BitVec.ofNat 32 w, inReset := false }

/-- R109, R67 (the trace is the model's field, log 3): when the host's next event is an aligned 4-byte read outside reset,
the step records the value in the host's trace and changes nothing else; and with no event left the block is idle and holds
everything (R315, log 4). -/
def Obligations.StepRecordsReadsAndIdles : Prop :=
  (∀ (s : State) (a : Addr) (rest : List HostEvent), s.inReset = false → s.program = .read a 4 :: rest →
    a.toNat % 4 = 0 → step s = .next { s with program := rest, trace := s.trace ++ [wordAt s a] }) ∧
  ∀ s : State, s.program = [] → step s = .next s

/-! ## The constant tables -/

/-- R143, R144: FSENC of full scale 0 is (1, 0) and of 1 to 4 is (0, FSEL - 1); FSDEC gives 125 dps for the special bit,
flagged when the selector is not 0, and else selector + 1; so FSDEC inverts FSENC. -/
def Obligations.FullScaleCodesFollowTheTable : Prop :=
  fsEnc 0 = (1, 0) ∧ (∀ f : BitVec 3, 1 ≤ f → f ≤ 4 → (fsEnc f).1 = 0 ∧ (fsEnc f).2.toNat = f.toNat - 1) ∧
  (∀ sel : BitVec 2, fsDec 1 sel = (0, sel != 0)) ∧
  (∀ sel : BitVec 2, (fsDec 0 sel).1.toNat = sel.toNat + 1 ∧ (fsDec 0 sel).2 = false) ∧
  ∀ f : BitVec 3, f ≤ 4 → fsDec (fsEnc f).1 (fsEnc f).2 = (f, false)

/-- R201: the scaler's factor is exactly 8 times the sensitivity in mdps per LSB, and is 35 * 2^FSEL. -/
def Obligations.ScaleFactorIsEightTimesSensitivity : Prop :=
  ∀ f : BitVec 3, f ≤ 4 → scaleFactor f = 35 * 2 ^ f.toNat ∧
    ∃ sens, sensMicroDps[f.toNat]? = some sens ∧ 1000 * scaleFactor f = 8 * sens

/-- R220, R221: TMO is 0 for `off`, and otherwise the nearest integer to 1.25 sample periods in ms, at least 1; no rate is a
tie. -/
def Obligations.TimeoutFollowsTheDerivation : Prop :=
  timeoutMs defaultParams 0 = 0 ∧
  ∀ k : BitVec 4, 1 ≤ k → k ≤ 10 → ∃ rate n : Nat, rateTenthsHz[k.toNat]? = some rate ∧
    timeoutMs defaultParams k = max 1 n ∧ |(n : ℚ) - 1.25 * 1000 / ((rate : ℚ) / 10)| < 1 / 2

/-- R227: TMO is 0 exactly for `off`, it never grows with the rate, and DLY is at least 1. -/
def Obligations.TimeoutTableLaws : Prop :=
  (∀ k : BitVec 4, k ≤ 10 → (timeoutMs defaultParams k = 0 ↔ k = 0)) ∧
  (∀ k l : BitVec 4, 1 ≤ k → k ≤ l → l ≤ 10 → timeoutMs defaultParams l ≤ timeoutMs defaultParams k) ∧
  ∀ (p : Params) (k : BitVec 4), 1 ≤ delayMs p k

/-- R241: the window is [20, 80] at 250 dps and [150, 700] at 2000 dps, by MODE[1] alone; both bounds are inside it. -/
def Obligations.WindowDependsOnFullScaleAlone : Prop :=
  (∀ m : BitVec 2, m.getLsbD 1 = false → window m = (20, 80)) ∧ (∀ m : BitVec 2, m.getLsbD 1 = true → window m = (150, 700)) ∧
  ∀ (m : BitVec 2) (d : Nat), withinWindow (window m) 1 1 d = true ↔ (window m).1 ≤ d ∧ d ≤ (window m).2

/-! ## Laws of the codec, over every well-formed parameter record (41_register_codec.md) -/

/-- R157: encoding a full scale and a rate into any control-2 byte and decoding gives them back, canonical and not reserved,
and every unrelated bit is kept. -/
def Obligations.Control2RoundTrip : Prop :=
  ∀ (p : Params) (w : Byte) (f : BitVec 3) (o : BitVec 4), p.layout.wf = true → p.codes.wf = true → f ≤ 4 → o ≤ 10 →
    (decodeControl2 p (encodeControl2 p w f o true true)).fsel = f ∧
    (decodeControl2 p (encodeControl2 p w f o true true)).odrsel = o ∧
    (decodeControl2 p (encodeControl2 p w f o true true)).noncanon = false ∧
    (decodeControl2 p (encodeControl2 p w f o true true)).odrrsv = false ∧
    (decodeControl2 p (encodeControl2 p w f o true true)).off = (o == 0) ∧
    ∀ i, i < 8 → p.layout.c2Unrelated i = true → (encodeControl2 p w f o true true).getLsbD i = w.getLsbD i

/-- R158: re-encoding what was decoded from a byte with NONCANON = 0 and ODRRSV = 0 gives the byte back; for a byte that is not
canonical the re-encode clears the selector, so it does not. -/
def Obligations.Control2DecodeThenEncode : Prop :=
  ∀ (p : Params) (w : Byte), p.layout.wf = true → p.codes.wf = true →
    ((decodeControl2 p w).noncanon = false → (decodeControl2 p w).odrrsv = false →
      encodeControl2 p w (decodeControl2 p w).fsel (decodeControl2 p w).odrsel true true = w) ∧
    ((decodeControl2 p w).noncanon = true →
      getField (encodeControl2 p w (decodeControl2 p w).fsel (decodeControl2 p w).odrsel true true) p.layout.c2Fsg 2 = 0 ∧
      encodeControl2 p w (decodeControl2 p w).fsel (decodeControl2 p w).odrsel true true ≠ w)

/-- R166: encoding a legal self-test code and a rounding value into any control-5 byte and decoding gives them back, and every
unrelated bit is kept. -/
def Obligations.Control5RoundTrip : Prop :=
  ∀ (p : Params) (w : Byte) (st : BitVec 2) (rn : Bool), p.layout.wf = true → p.codes.wf = true →
    st = p.codes.stNone ∨ st = p.codes.stPos ∨ st = p.codes.stNeg →
    (decodeControl5 p (encodeControl5 p w st true rn true)).st = st ∧
    (decodeControl5 p (encodeControl5 p w st true rn true)).rnd = rn ∧
    (decodeControl5 p (encodeControl5 p w st true rn true)).strsv = false ∧
    ∀ i, i < 8 → p.layout.c5Unrelated i = true → (encodeControl5 p w st true rn true).getLsbD i = w.getLsbD i

/-- R167: bits [7:4] of a C5DEC result without STRSV, with OP, UST and URND put in, are a legal C5ENC word, and running it on
the same byte returns the byte. -/
def Obligations.Control5ResultReencodes : Prop :=
  ∀ s t : State, s.params.codes.wf = true → exec .c5dec s = .next t → t.res0.getLsbD 16 = false → ∃ u,
    execute (t.res0 &&& 0xF0 ||| (0x3 ||| 1 <<< 6 ||| 1 <<< 8)) s = .next u ∧ u.stat = 0 ∧
    u.res0 = (s.arg0.extractLsb' 0 8).setWidth 32

/-! ## Laws of the scaler (42_scaler.md) -/

/-- R202, R204: SCALE's result, read as a signed number, is exactly the raw sample times K, lies in [-18350080, 18349520], and
divided by 8000 is the document's value in dps (raw times sensitivity over 1000), with no rounding. -/
def Obligations.ScaleResultIsExact : Prop :=
  ∀ (f : BitVec 3) (s : State) (sens : Nat), f ≤ 4 → sensMicroDps[f.toNat]? = some sens → ∃ t,
    exec (.scale f) s = .next t ∧
    ∀ (arg res : Word), (arg, res) ∈ [(s.arg0, t.res0), (s.arg1, t.res1), (s.arg2, t.res2)] →
      res.toInt = (arg.extractLsb' 0 16).toInt * scaleFactor f ∧ -18350080 ≤ res.toInt ∧ res.toInt ≤ 18349520 ∧
      (res.toInt : ℚ) / 8000 = ((arg.extractLsb' 0 16).toInt : ℚ) * ((sens : ℚ) / 1000) / 1000

/-- R207: the scaler's output q of a raw sample: 0 at 0, odd, linear, strictly increasing, and doubled by the next full
scale. -/
def Obligations.ScalerLaws : Prop :=
  ∀ f : BitVec 3, f ≤ 4 →
    sext32 (toBits32 (scaled f 0)) = 0 ∧
    (∀ r : Int, -32768 < r → r ≤ 32767 → sext32 (toBits32 (scaled f (-r))) = -sext32 (toBits32 (scaled f r))) ∧
    (∀ r s : Int, -32768 ≤ r → r ≤ 32767 → -32768 ≤ s → s ≤ 32767 → -32768 ≤ r + s → r + s ≤ 32767 →
      sext32 (toBits32 (scaled f (r + s))) = sext32 (toBits32 (scaled f r)) + sext32 (toBits32 (scaled f s))) ∧
    (∀ r s : Int, -32768 ≤ r → r < s → s ≤ 32767 → sext32 (toBits32 (scaled f r)) < sext32 (toBits32 (scaled f s))) ∧
    ∀ r : Int, -32768 ≤ r → r ≤ 32767 → f ≤ 3 →
      sext32 (toBits32 (scaled (f + 1) r)) = 2 * sext32 (toBits32 (scaled f r))

/-! ## Laws of the accumulators and the comparator (44_selftest_compare.md) -/

/-- R255: in a bank that meets the invariant, ACCADD's sums never wrap: read as signed numbers they are the exact sums, in
[-8355840, 8355585]. -/
def Obligations.AccumulatorNeverWraps : Prop :=
  ∀ (b : Bank) (s : State), BankWf (bankOf s b) → (bankOf s b).cnt ≠ 255 → ∃ t, exec (.accadd b) s = .next t ∧
    ∀ (old arg new : Word), (old, arg, new) ∈ [((bankOf s b).x, s.arg0, (bankOf t b).x),
        ((bankOf s b).y, s.arg1, (bankOf t b).y), ((bankOf s b).z, s.arg2, (bankOf t b).z)] →
      new.toInt = old.toInt + (arg.extractLsb' 0 16).toInt ∧ -8355840 ≤ new.toInt ∧ new.toInt ≤ 8355585

/-- R260: an axis passes (PASSX, PASSY, PASSZ of STCMP) exactly when the absolute difference between the two banks' averages,
as exact fractions, lies within the mode's inclusive window; the test passes (PASS) exactly when every axis does. -/
def Obligations.VerdictIsTheAverageWindow : Prop :=
  ∀ (m : BitVec 2) (s : State) (n0 n1 : ℚ), n0 = (s.bank0.cnt.toNat : ℚ) → n1 = (s.bank1.cnt.toNat : ℚ) →
    s.bank0.cnt ≠ 0 → s.bank1.cnt ≠ 0 → ∃ t, exec (.stcmp m) s = .next t ∧
      (∀ (k : Nat) (s0 s1 : Word), (k, s0, s1) ∈ [(1, s.bank0.x, s.bank1.x), (2, s.bank0.y, s.bank1.y),
          (3, s.bank0.z, s.bank1.z)] →
        (t.res0.getLsbD k = true ↔
          ((window m).1 : ℚ) ≤ |(s1.toInt : ℚ) / n1 - (s0.toInt : ℚ) / n0| ∧
          |(s1.toInt : ℚ) / n1 - (s0.toInt : ℚ) / n0| ≤ ((window m).2 : ℚ))) ∧
      (t.res0.getLsbD 0 = true ↔ t.res0.getLsbD 1 = true ∧ t.res0.getLsbD 2 = true ∧ t.res0.getLsbD 3 = true)

/-- R262: in a state that meets the invariant the differences STCMP returns fit their registers: RES1 to RES3, read
unsigned, are D_X, D_Y and D_Z, at most 4261478400. -/
def Obligations.DifferencesFitTheirRegisters : Prop :=
  ∀ (m : BitVec 2) (s : State), BankWf s.bank0 → BankWf s.bank1 → s.bank0.cnt ≠ 0 → s.bank1.cnt ≠ 0 →
    ∃ t, exec (.stcmp m) s = .next t ∧
      ∀ (s0 s1 res : Word),
        (s0, s1, res) ∈ [(s.bank0.x, s.bank1.x, t.res1), (s.bank0.y, s.bank1.y, t.res2), (s.bank0.z, s.bank1.z, t.res3)] →
        res.toNat = (s1.toInt * s.bank0.cnt.toNat - s0.toInt * s.bank1.cnt.toNat).natAbs ∧ res.toNat ≤ 4261478400

/-- R273: the comparator's results are unchanged (a) when the banks are swapped, (b) when every sample of both banks is
negated, (c) when one constant is added to every sample of both banks, and (d) when the mode's sign bit changes. Banks are
described by their counts and sums: negating every sample negates the sums, adding c to each of n samples adds c * n. And (e)
with one sample in each bank an axis passes exactly when the samples' difference is in the window. -/
def Obligations.ComparatorLaws : Prop :=
  (∀ (m : BitVec 2) (s u : State), s.bank0.cnt ≠ 0 → s.bank1.cnt ≠ 0 →
    ((u.bank0 = s.bank1 ∧ u.bank1 = s.bank0) ∨
     (u.bank0.cnt = s.bank0.cnt ∧ u.bank1.cnt = s.bank1.cnt ∧
      ((∀ b, (bankOf u b).x.toInt = -(bankOf s b).x.toInt ∧ (bankOf u b).y.toInt = -(bankOf s b).y.toInt ∧
          (bankOf u b).z.toInt = -(bankOf s b).z.toInt) ∨
       ∃ c : Int, ∀ b, (bankOf u b).x.toInt = (bankOf s b).x.toInt + c * (bankOf s b).cnt.toNat ∧
          (bankOf u b).y.toInt = (bankOf s b).y.toInt + c * (bankOf s b).cnt.toNat ∧
          (bankOf u b).z.toInt = (bankOf s b).z.toInt + c * (bankOf s b).cnt.toNat))) →
    ∃ t v, exec (.stcmp m) s = .next t ∧ exec (.stcmp m) u = .next v ∧
      v.res0 = t.res0 ∧ v.res1 = t.res1 ∧ v.res2 = t.res2 ∧ v.res3 = t.res3) ∧
  (∀ (m : BitVec 2) (s : State), s.bank0.cnt ≠ 0 → s.bank1.cnt ≠ 0 → ∃ t w,
    exec (.stcmp m) s = .next t ∧ exec (.stcmp (m ^^^ 1)) s = .next w ∧
    w.res0 = t.res0 ∧ w.res1 = t.res1 ∧ w.res2 = t.res2 ∧ w.res3 = t.res3) ∧
  ∀ (m : BitVec 2) (s : State), s.bank0.cnt = 1 → s.bank1.cnt = 1 → ∃ t, exec (.stcmp m) s = .next t ∧
    ∀ (k : Nat) (s0 s1 : Word), (k, s0, s1) ∈ [(1, s.bank0.x, s.bank1.x), (2, s.bank0.y, s.bank1.y),
        (3, s.bank0.z, s.bank1.z)] →
      (t.res0.getLsbD k = true ↔
        ((window m).1 : Int) ≤ |s1.toInt - s0.toInt| ∧ |s1.toInt - s0.toInt| ≤ (window m).2)

/-! ## The assembler (30_encoding.md) -/

/-- R108: whatever line the assembler accepts spells a well-formed command, so its word decodes to it. -/
def Obligations.AssembledCommandsAreLegal : Prop :=
  ∀ (mnemonic : String) (ops : List (String × String)) (i : Instr), assemble mnemonic ops = some i →
    WellFormed defaultCodes i = true

/-- R108's operand values: the tokens of each operand, and no other token is accepted. -/
def Obligations.OperandTokensFollowTheList : Prop :=
  (∀ t f, fsToken t = some f ↔ (t, f) ∈ [("125", 0#3), ("250", 1#3), ("500", 2#3), ("1000", 3#3), ("2000", 4#3)]) ∧
  (∀ t o, odrToken t = some o ↔ (t, o) ∈ [("off", 0#4), ("12.5", 1#4), ("26", 2#4), ("52", 3#4), ("104", 4#4), ("208", 5#4),
    ("416", 6#4), ("833", 7#4), ("1666", 8#4), ("3332", 9#4), ("6664", 10#4)]) ∧
  (∀ t c, stToken t = some c ↔ (t, c) ∈ [("none", 0b00#2), ("pos", 0b01#2), ("neg", 0b11#2)]) ∧
  (∀ t m, modeToken t = some m ↔ (t, m) ∈ [("250p", 0#2), ("250n", 1#2), ("2000p", 2#2), ("2000n", 3#2)]) ∧
  (∀ t b, bankToken t = some b ↔ (t, b) ∈ [("0", Bank.bank0), ("1", Bank.bank1)]) ∧
  ∀ t b, bitToken t = some b ↔ (t, b) ∈ [("0", false), ("1", true)]

/-- R108, over lines already cut into a mnemonic and operands, of which none is given twice (log 16): each of the twelve
mnemonics assembles to its command exactly when every operand is one of its own, each operand given has one of its tokens, and
each omitted one counts as 0. The order of the operands does not matter (for the pseudo-commands this is the model's choice
of log 21); an unknown mnemonic is refused. The last clause, that a line which gives an operand twice is refused, is the
model's choice of log 16 (DESIGN CHOICE) and not R108's words. -/
def Obligations.LinesAssembleToTheirCommands : Prop :=
  (∀ (ops : List (String × String)) (i : Instr), (ops.map Prod.fst).Nodup →
    (assemble "NOP" ops = some i ↔ ops = [] ∧ i = .nop) ∧
    (assemble "C2ENC" ops = some i ↔ OnlyOperands ops ["fs", "odr", "ufs", "uodr"] ∧ ∃ f o uf uo,
      OperandIs ops "fs" 0 fsToken f ∧ OperandIs ops "odr" 0 odrToken o ∧ OperandIs ops "ufs" false bitToken uf ∧
      OperandIs ops "uodr" false bitToken uo ∧ i = .c2enc f o uf uo) ∧
    (assemble "C2DEC" ops = some i ↔ ops = [] ∧ i = .c2dec) ∧
    (assemble "C5ENC" ops = some i ↔ OnlyOperands ops ["st", "ust", "rnd", "urnd"] ∧ ∃ st us rn ur,
      OperandIs ops "st" 0 stToken st ∧ OperandIs ops "ust" false bitToken us ∧ OperandIs ops "rnd" false bitToken rn ∧
      OperandIs ops "urnd" false bitToken ur ∧ i = .c5enc st us rn ur) ∧
    (assemble "C5DEC" ops = some i ↔ ops = [] ∧ i = .c5dec) ∧
    (assemble "STADEC" ops = some i ↔ ops = [] ∧ i = .stadec) ∧
    (assemble "SCALE" ops = some i ↔ OnlyOperands ops ["fs"] ∧ ∃ f, OperandIs ops "fs" 0 fsToken f ∧ i = .scale f) ∧
    (assemble "DRDYTMO" ops = some i ↔ OnlyOperands ops ["odr"] ∧ ∃ o, OperandIs ops "odr" 0 odrToken o ∧ i = .drdytmo o) ∧
    (assemble "STCFG" ops = some i ↔ OnlyOperands ops ["mode"] ∧ ∃ m, OperandIs ops "mode" 0 modeToken m ∧ i = .stcfg m) ∧
    (assemble "ACCCLR" ops = some i ↔
      OnlyOperands ops ["bank"] ∧ ∃ b, OperandIs ops "bank" .bank0 bankToken b ∧ i = .accclr b) ∧
    (assemble "ACCADD" ops = some i ↔
      OnlyOperands ops ["bank"] ∧ ∃ b, OperandIs ops "bank" .bank0 bankToken b ∧ i = .accadd b) ∧
    (assemble "STCMP" ops = some i ↔ OnlyOperands ops ["mode"] ∧ ∃ m, OperandIs ops "mode" 0 modeToken m ∧ i = .stcmp m)) ∧
  (∀ (mnemonic : String) (ops ops' : List (String × String)), ops.Perm ops' →
    assemble mnemonic ops = assemble mnemonic ops') ∧
  (∀ (mnemonic : String) (ops : List (String × String)),
    mnemonic ∉ ["NOP", "C2ENC", "C2DEC", "C5ENC", "C5DEC", "STADEC", "SCALE", "DRDYTMO", "STCFG", "ACCCLR", "ACCADD", "STCMP",
      "C2SET", "C2SETFS", "C2SETODR", "C5SETST", "C5SETRND"] → assemble mnemonic ops = none) ∧
  ∀ (mnemonic : String) (ops : List (String × String)), ¬(ops.map Prod.fst).Nodup → assemble mnemonic ops = none

/-- R110: each pseudo-command assembles to the command it expands to, and `CMD c` is the write of c's word to address 0. -/
def Obligations.PseudoCommandsExpand : Prop :=
  (∀ (fs odr : String) (f : BitVec 3) (o : BitVec 4), fsToken fs = some f → odrToken odr = some o →
    assemble "C2SET" [("fs", fs), ("odr", odr)] = some (.c2enc f o true true)) ∧
  (∀ (fs : String) (f : BitVec 3), fsToken fs = some f →
    assemble "C2SETFS" [("fs", fs)] = some (.c2enc f 0 true false)) ∧
  (∀ (odr : String) (o : BitVec 4), odrToken odr = some o →
    assemble "C2SETODR" [("odr", odr)] = some (.c2enc 0 o false true)) ∧
  (∀ (st : String) (c : BitVec 2), stToken st = some c →
    assemble "C5SETST" [("st", st)] = some (.c5enc c true false false)) ∧
  (∀ (rnd : String) (r : Bool), bitToken rnd = some r →
    assemble "C5SETRND" [("rnd", rnd)] = some (.c5enc 0b00 false r true)) ∧
  ∀ i : Instr, hostLineEvent (.cmd i) = .write 0x00 4 (encode i)
end

