-- ==== Sys2Proof/Laws/State.lean ====
section
/-! SUPPORT. What each shared update of the state leaves in each field, so that no proof unfolds a record update. -/

namespace Sys2Proof.Machine

variable (s : State) (e : CmdError) (r0 r1 r2 r3 : Word) (b : Bank) (r : AccBank)

/-! ## raiseError -/
@[simp] theorem raiseError_cmd : (raiseError e s).cmd = s.cmd := rfl
@[simp] theorem raiseError_stat : (raiseError e s).stat = statError e := rfl
@[simp] theorem raiseError_arg0 : (raiseError e s).arg0 = s.arg0 := rfl
@[simp] theorem raiseError_arg1 : (raiseError e s).arg1 = s.arg1 := rfl
@[simp] theorem raiseError_arg2 : (raiseError e s).arg2 = s.arg2 := rfl
@[simp] theorem raiseError_res0 : (raiseError e s).res0 = s.res0 := rfl
@[simp] theorem raiseError_res1 : (raiseError e s).res1 = s.res1 := rfl
@[simp] theorem raiseError_res2 : (raiseError e s).res2 = s.res2 := rfl
@[simp] theorem raiseError_res3 : (raiseError e s).res3 = s.res3 := rfl
@[simp] theorem raiseError_bank0 : (raiseError e s).bank0 = s.bank0 := rfl
@[simp] theorem raiseError_bank1 : (raiseError e s).bank1 = s.bank1 := rfl
@[simp] theorem raiseError_params : (raiseError e s).params = s.params := rfl
@[simp] theorem raiseError_program : (raiseError e s).program = s.program := rfl
@[simp] theorem raiseError_trace : (raiseError e s).trace = s.trace := rfl
@[simp] theorem raiseError_inReset : (raiseError e s).inReset = s.inReset := rfl

/-! ## complete -/

@[simp] theorem complete_cmd : (complete s).cmd = s.cmd := rfl
@[simp] theorem complete_stat : (complete s).stat = 0 := rfl
@[simp] theorem complete_arg0 : (complete s).arg0 = s.arg0 := rfl
@[simp] theorem complete_arg1 : (complete s).arg1 = s.arg1 := rfl
@[simp] theorem complete_arg2 : (complete s).arg2 = s.arg2 := rfl
@[simp] theorem complete_res0 : (complete s).res0 = s.res0 := rfl
@[simp] theorem complete_res1 : (complete s).res1 = s.res1 := rfl
@[simp] theorem complete_res2 : (complete s).res2 = s.res2 := rfl
@[simp] theorem complete_res3 : (complete s).res3 = s.res3 := rfl
@[simp] theorem complete_bank0 : (complete s).bank0 = s.bank0 := rfl
@[simp] theorem complete_bank1 : (complete s).bank1 = s.bank1 := rfl
@[simp] theorem complete_params : (complete s).params = s.params := rfl
@[simp] theorem complete_program : (complete s).program = s.program := rfl
@[simp] theorem complete_trace : (complete s).trace = s.trace := rfl
@[simp] theorem complete_inReset : (complete s).inReset = s.inReset := rfl

/-! ## writeResults -/

@[simp] theorem writeResults_cmd : (writeResults r0 r1 r2 r3 s).cmd = s.cmd := rfl
@[simp] theorem writeResults_stat : (writeResults r0 r1 r2 r3 s).stat = s.stat := rfl
@[simp] theorem writeResults_arg0 : (writeResults r0 r1 r2 r3 s).arg0 = s.arg0 := rfl
@[simp] theorem writeResults_arg1 : (writeResults r0 r1 r2 r3 s).arg1 = s.arg1 := rfl
@[simp] theorem writeResults_arg2 : (writeResults r0 r1 r2 r3 s).arg2 = s.arg2 := rfl
@[simp] theorem writeResults_res0 : (writeResults r0 r1 r2 r3 s).res0 = r0 := rfl
@[simp] theorem writeResults_res1 : (writeResults r0 r1 r2 r3 s).res1 = r1 := rfl
@[simp] theorem writeResults_res2 : (writeResults r0 r1 r2 r3 s).res2 = r2 := rfl
@[simp] theorem writeResults_res3 : (writeResults r0 r1 r2 r3 s).res3 = r3 := rfl
@[simp] theorem writeResults_bank0 : (writeResults r0 r1 r2 r3 s).bank0 = s.bank0 := rfl
@[simp] theorem writeResults_bank1 : (writeResults r0 r1 r2 r3 s).bank1 = s.bank1 := rfl
@[simp] theorem writeResults_params : (writeResults r0 r1 r2 r3 s).params = s.params := rfl
@[simp] theorem writeResults_program : (writeResults r0 r1 r2 r3 s).program = s.program := rfl
@[simp] theorem writeResults_trace : (writeResults r0 r1 r2 r3 s).trace = s.trace := rfl
@[simp] theorem writeResults_inReset : (writeResults r0 r1 r2 r3 s).inReset = s.inReset := rfl

/-! ## finish -/

@[simp] theorem finish_cmd : (finish r0 r1 r2 r3 s).cmd = s.cmd := rfl
@[simp] theorem finish_stat : (finish r0 r1 r2 r3 s).stat = 0 := rfl
@[simp] theorem finish_arg0 : (finish r0 r1 r2 r3 s).arg0 = s.arg0 := rfl
@[simp] theorem finish_arg1 : (finish r0 r1 r2 r3 s).arg1 = s.arg1 := rfl
@[simp] theorem finish_arg2 : (finish r0 r1 r2 r3 s).arg2 = s.arg2 := rfl
@[simp] theorem finish_res0 : (finish r0 r1 r2 r3 s).res0 = r0 := rfl
@[simp] theorem finish_res1 : (finish r0 r1 r2 r3 s).res1 = r1 := rfl
@[simp] theorem finish_res2 : (finish r0 r1 r2 r3 s).res2 = r2 := rfl
@[simp] theorem finish_res3 : (finish r0 r1 r2 r3 s).res3 = r3 := rfl
@[simp] theorem finish_bank0 : (finish r0 r1 r2 r3 s).bank0 = s.bank0 := rfl
@[simp] theorem finish_bank1 : (finish r0 r1 r2 r3 s).bank1 = s.bank1 := rfl
@[simp] theorem finish_params : (finish r0 r1 r2 r3 s).params = s.params := rfl
@[simp] theorem finish_program : (finish r0 r1 r2 r3 s).program = s.program := rfl
@[simp] theorem finish_trace : (finish r0 r1 r2 r3 s).trace = s.trace := rfl
@[simp] theorem finish_inReset : (finish r0 r1 r2 r3 s).inReset = s.inReset := rfl

/-- A legal command's end as one record: its results, STAT <- 0, and nothing else (30_encoding.md R104, R106). -/
theorem finish_eq : finish r0 r1 r2 r3 s = { s with stat := 0, res0 := r0, res1 := r1, res2 := r2, res3 := r3 } := rfl

/-- A failing command's end as one record (30_encoding.md R105). -/
theorem raiseError_eq : raiseError e s = { s with stat := statError e } := rfl

/-! ## setBank -/

@[simp] theorem setBank_cmd : (setBank b r s).cmd = s.cmd := by cases b <;> rfl
@[simp] theorem setBank_stat : (setBank b r s).stat = s.stat := by cases b <;> rfl
@[simp] theorem setBank_arg0 : (setBank b r s).arg0 = s.arg0 := by cases b <;> rfl
@[simp] theorem setBank_arg1 : (setBank b r s).arg1 = s.arg1 := by cases b <;> rfl
@[simp] theorem setBank_arg2 : (setBank b r s).arg2 = s.arg2 := by cases b <;> rfl
@[simp] theorem setBank_res0 : (setBank b r s).res0 = s.res0 := by cases b <;> rfl
@[simp] theorem setBank_res1 : (setBank b r s).res1 = s.res1 := by cases b <;> rfl
@[simp] theorem setBank_res2 : (setBank b r s).res2 = s.res2 := by cases b <;> rfl
@[simp] theorem setBank_res3 : (setBank b r s).res3 = s.res3 := by cases b <;> rfl
@[simp] theorem setBank_params : (setBank b r s).params = s.params := by cases b <;> rfl
@[simp] theorem setBank_program : (setBank b r s).program = s.program := by cases b <;> rfl
@[simp] theorem setBank_trace : (setBank b r s).trace = s.trace := by cases b <;> rfl
@[simp] theorem setBank_inReset : (setBank b r s).inReset = s.inReset := by cases b <;> rfl
@[simp] theorem setBank_bank0_bank0 : (setBank .bank0 r s).bank0 = r := rfl
@[simp] theorem setBank_bank0_bank1 : (setBank .bank0 r s).bank1 = s.bank1 := rfl
@[simp] theorem setBank_bank1_bank0 : (setBank .bank1 r s).bank0 = s.bank0 := rfl
@[simp] theorem setBank_bank1_bank1 : (setBank .bank1 r s).bank1 = r := rfl
@[simp] theorem bankOf_setBank : bankOf (setBank b r s) b = r := by cases b <;> rfl
@[simp] theorem bankOf_setBank_other : bankOf (setBank b r s) b.other = bankOf s b.other := by cases b <;> rfl
@[simp] theorem bankOf_bank0 : bankOf s .bank0 = s.bank0 := rfl
@[simp] theorem bankOf_bank1 : bankOf s .bank1 = s.bank1 := rfl
@[simp] theorem bankOf_raiseError : bankOf (raiseError e s) b = bankOf s b := by cases b <;> rfl
@[simp] theorem bankOf_complete : bankOf (complete s) b = bankOf s b := by cases b <;> rfl
@[simp] theorem bankOf_finish : bankOf (finish r0 r1 r2 r3 s) b = bankOf s b := by cases b <;> rfl

/-! ## applyReset -/

@[simp] theorem applyReset_true_cmd : (applyReset true s).cmd = 0 := rfl
@[simp] theorem applyReset_false_cmd : (applyReset false s).cmd = s.cmd := rfl
@[simp] theorem applyReset_true_stat : (applyReset true s).stat = 0 := rfl
@[simp] theorem applyReset_false_stat : (applyReset false s).stat = s.stat := rfl
@[simp] theorem applyReset_true_arg0 : (applyReset true s).arg0 = 0 := rfl
@[simp] theorem applyReset_false_arg0 : (applyReset false s).arg0 = s.arg0 := rfl
@[simp] theorem applyReset_true_arg1 : (applyReset true s).arg1 = 0 := rfl
@[simp] theorem applyReset_false_arg1 : (applyReset false s).arg1 = s.arg1 := rfl
@[simp] theorem applyReset_true_arg2 : (applyReset true s).arg2 = 0 := rfl
@[simp] theorem applyReset_false_arg2 : (applyReset false s).arg2 = s.arg2 := rfl
@[simp] theorem applyReset_true_res0 : (applyReset true s).res0 = 0 := rfl
@[simp] theorem applyReset_false_res0 : (applyReset false s).res0 = s.res0 := rfl
@[simp] theorem applyReset_true_res1 : (applyReset true s).res1 = 0 := rfl
@[simp] theorem applyReset_false_res1 : (applyReset false s).res1 = s.res1 := rfl
@[simp] theorem applyReset_true_res2 : (applyReset true s).res2 = 0 := rfl
@[simp] theorem applyReset_false_res2 : (applyReset false s).res2 = s.res2 := rfl
@[simp] theorem applyReset_true_res3 : (applyReset true s).res3 = 0 := rfl
@[simp] theorem applyReset_false_res3 : (applyReset false s).res3 = s.res3 := rfl
@[simp] theorem applyReset_true_bank0 : (applyReset true s).bank0 = AccBank.empty := rfl
@[simp] theorem applyReset_false_bank0 : (applyReset false s).bank0 = s.bank0 := rfl
@[simp] theorem applyReset_true_bank1 : (applyReset true s).bank1 = AccBank.empty := rfl
@[simp] theorem applyReset_false_bank1 : (applyReset false s).bank1 = s.bank1 := rfl
@[simp] theorem applyReset_params (asserted : Bool) : (applyReset asserted s).params = s.params := by
  cases asserted <;> rfl
@[simp] theorem applyReset_program (asserted : Bool) : (applyReset asserted s).program = s.program := by
  cases asserted <;> rfl
@[simp] theorem applyReset_trace (asserted : Bool) : (applyReset asserted s).trace = s.trace := by
  cases asserted <;> rfl
@[simp] theorem applyReset_inReset (asserted : Bool) : (applyReset asserted s).inReset = asserted := by
  cases asserted <;> rfl

end Sys2Proof.Machine
end

