-- ==== Sys2Proof/Laws/Ops.lean ====
section
/-! SUPPORT. What each shared operation can do, said once: how a command ends, what the decoder and the host port answer, and
what a step does. -/

namespace Sys2Proof.Machine

/-! ## How a command ends -/

@[simp] theorem checked_none (s t : State) : checked none s t = .next t := rfl

@[simp] theorem checked_some (c : CmdError) (s t : State) : checked (some c) s t = .next (raiseError c s) := rfl

/-- A checked command always goes on: to its own end, or to its error. -/
theorem checked_eq_next {e : Option CmdError} {s t t' : State} (h : checked e s t = .next t') :
    (e = none ∧ t' = t) ∨ ∃ c, e = some c ∧ t' = raiseError c s := by
  cases e with
  | none => exact .inl ⟨rfl, by simpa using h.symm⟩
  | some c => exact .inr ⟨c, rfl, by simpa using h.symm⟩

/-- STAT after a failing command is never 0, whatever the error (60_exceptions.md R303). -/
theorem statError_ne_zero (e : CmdError) : statError e ≠ 0 := by cases e <;> decide

/-- STAT after a command is well formed (10_state.md R32). -/
theorem statWf_statError (e : CmdError) : StatWf (statError e) := by cases e <;> decide

/-! ## Legality of a command's fields -/

/-- The decoder's field checks are WellFormed's (30_encoding.md R103; 60_exceptions.md R301). -/
theorem fieldError_eq_none_iff (c : Codes) (i : Instr) : fieldError c i = none ↔ WellFormed c i = true := by
  cases i with
  | c2enc f o _ _ => simp only [fieldError, WellFormed]; revert f o; decide
  | c5enc st _ _ _ => simp [fieldError, WellFormed, stselLegal]
  | scale f => simp only [fieldError, WellFormed]; revert f; decide
  | drdytmo o => simp only [fieldError, WellFormed]; revert o; decide
  | _ => simp [fieldError, WellFormed]

/-- The field checks name only BADFS, BADODR and BADST (30_encoding.md R104). -/
theorem fieldError_eq_some {c : Codes} {i : Instr} {e : CmdError} (h : fieldError c i = some e) :
    e = .badfs ∨ e = .badodr ∨ e = .badst := by
  cases i <;> simp only [fieldError, reduceCtorEq] at h <;> (repeat' split at h) <;> simp_all

/-! ## The decoder -/

/-- When the decoder answers a command: OP is defined, no reserved bit is set, and the fields are legal (30_encoding.md
R104). -/
theorem decode_eq_ok_iff (c : Codes) (v : Word) (i : Instr) :
    decode c v = .ok i ↔ readFields v = some i ∧ reservedBitsSet i.format v = false ∧ fieldError c i = none := by
  unfold decode
  split
  · simp_all
  · rename_i j hj
    constructor
    · intro h
      split at h
      · cases h
      · split at h
        · cases h
        · cases h
          simp_all
    · rintro ⟨h1, h2, h3⟩
      cases hj.symm.trans h1
      simp [h2, h3]

/-- Everything the decoder can answer, in the order of the checks (30_encoding.md R104). -/
theorem decode_cases (c : Codes) (v : Word) :
    (readFields v = none ∧ decode c v = .error .rsvop) ∨
    ∃ i, readFields v = some i ∧
      ((reservedBitsSet i.format v = true ∧ decode c v = .error .rsvbits) ∨
       (reservedBitsSet i.format v = false ∧
         ((∃ e, fieldError c i = some e ∧ decode c v = .error e) ∨ (fieldError c i = none ∧ decode c v = .ok i)))) := by
  unfold decode
  cases readFields v with
  | none => simp
  | some i =>
    cases hr : reservedBitsSet i.format v with
    | true => simp [hr]
    | false => cases hf : fieldError c i <;> simp [hr, hf]

/-- A decoded command is well formed. -/
theorem wellFormed_of_decode {c : Codes} {v : Word} {i : Instr} (h : decode c v = .ok i) : WellFormed c i = true :=
  (fieldError_eq_none_iff c i).1 ((decode_eq_ok_iff c v i).1 h).2.2

/-! ## Execution and the host port -/

/-- What running a command word can be: the decoder's error, or the decoded command's rule (30_encoding.md R104). -/
theorem execute_cases (v : Word) (s : State) :
    (∃ e, decode s.params.codes v = .error e ∧ execute v s = .next (raiseError e s)) ∨
    ∃ i, decode s.params.codes v = .ok i ∧ execute v s = exec i s := by
  unfold execute
  cases decode s.params.codes v with
  | error e => exact .inl ⟨e, rfl, rfl⟩
  | ok i => exact .inr ⟨i, rfl, rfl⟩

/-- The register map is exactly the addresses of the registers (10_state.md R30). -/
theorem regAt_regAddr (r : Reg) : regAt (regAddr r) = some r := by cases r <;> rfl

/-- A register found at an address has that address (10_state.md R37: nothing aliases). -/
theorem regAddr_of_regAt {a : Addr} {r : Reg} (h : regAt a = some r) : regAddr r = a := by
  have := List.find?_some h
  simpa using this

/-- A register's address is always a legal one for a 4-byte access. -/
theorem legalAccess_regAddr (r : Reg) : legalAccess (regAddr r) 4 = true := by cases r <;> rfl

/-- A register reads as its value (20_memory.md R63). -/
@[simp] theorem busRead_regAddr (r : Reg) (s : State) : busRead (regAddr r) 4 s = some (readReg s r) := by
  simp [busRead, legalAccess_regAddr, wordAt, regAt_regAddr]

/-- An illegal read is a bus error (20_memory.md R64). -/
theorem busRead_illegal {a : Addr} {n : Nat} (h : legalAccess a n = false) (s : State) : busRead a n s = none := by
  simp [busRead, h]

/-- An illegal write is a bus error (20_memory.md R64). -/
theorem busWrite_illegal {a : Addr} {n : Nat} (h : legalAccess a n = false) (v : Word) (s : State) :
    busWrite a n v s = .fault .busError := by
  simp [busWrite, h]

/-- An aligned 32-bit write to a mapped register is a register write (20_memory.md R63). -/
@[simp] theorem busWrite_regAddr (r : Reg) (v : Word) (s : State) : busWrite (regAddr r) 4 v s = writeReg r v s := by
  simp [busWrite, legalAccess_regAddr, regAt_regAddr]

/-- The write of a command (20_memory.md R72). -/
theorem busWrite_cmd (v : Word) (s : State) : busWrite 0x00 4 v s = execute v { s with cmd := v } :=
  busWrite_regAddr .cmd v s

/-- The same, with the address as simp writes it. -/
@[simp] theorem busWrite_zero (v : Word) (s : State) : busWrite 0#8 4 v s = execute v { s with cmd := v } :=
  busWrite_regAddr .cmd v s

/-- What a register write can be: a command, an operand stored, or nothing (20_memory.md R63, R66). -/
theorem writeReg_cases (r : Reg) (v : Word) (s : State) :
    (r = .cmd ∧ writeReg r v s = execute v { s with cmd := v }) ∨
    (r = .arg0 ∧ writeReg r v s = .next { s with arg0 := v }) ∨
    (r = .arg1 ∧ writeReg r v s = .next { s with arg1 := v }) ∨
    (r = .arg2 ∧ writeReg r v s = .next { s with arg2 := v }) ∨
    writeReg r v s = .next s := by
  cases r <;> simp [writeReg]

/-- What a bus write that goes on can be (20_memory.md R63): a command, an operand stored, or nothing. -/
theorem busWrite_eq_next {a : Addr} {n : Nat} {v : Word} {s t : State} (h : busWrite a n v s = .next t) :
    legalAccess a n = true ∧
    ((a = 0x00 ∧ execute v { s with cmd := v } = .next t) ∨
     (a = 0x08 ∧ t = { s with arg0 := v }) ∨ (a = 0x0C ∧ t = { s with arg1 := v }) ∨ (a = 0x10 ∧ t = { s with arg2 := v }) ∨
     t = s) := by
  unfold busWrite at h
  split at h
  case isFalse => cases h
  case isTrue hl =>
    refine ⟨hl, ?_⟩
    split at h
    case h_2 => exact .inr (.inr (.inr (.inr (by cases h; rfl))))
    case h_1 r hr =>
      have ha := regAddr_of_regAt hr
      rcases writeReg_cases r v s with ⟨rfl, hw⟩ | ⟨rfl, hw⟩ | ⟨rfl, hw⟩ | ⟨rfl, hw⟩ | hw <;> rw [hw] at h
      · exact .inl ⟨ha.symm, h⟩
      · exact .inr (.inl ⟨ha.symm, by cases h; rfl⟩)
      · exact .inr (.inr (.inl ⟨ha.symm, by cases h; rfl⟩))
      · exact .inr (.inr (.inr (.inl ⟨ha.symm, by cases h; rfl⟩)))
      · exact .inr (.inr (.inr (.inr (by cases h; rfl))))

/-- A host read that goes on leaves the block alone and records the value (20_memory.md R67). -/
theorem hostRead_eq_next {a : Addr} {n : Nat} {s t : State} (h : hostRead a n s = .next t) :
    legalAccess a n = true ∧ t = { s with trace := s.trace ++ [wordAt s a] } := by
  unfold hostRead busRead at h
  by_cases hl : legalAccess a n = true
  · simp only [hl, if_true] at h
    exact ⟨hl, by cases h; rfl⟩
  · simp [hl] at h

/-- Everything a step that goes on can be: idle, a read, a write, or a change of the reset input. -/
theorem step_eq_next {s t : State} (h : step s = .next t) :
    (s.program = [] ∧ t = s) ∨
    (∃ a n rest, s.program = .read a n :: rest ∧ s.inReset = false ∧
      hostRead a n { s with program := rest } = .next t) ∨
    (∃ a n v rest, s.program = .write a n v :: rest ∧ s.inReset = false ∧
      busWrite a n v { s with program := rest } = .next t) ∨
    (∃ l rest, s.program = .resetInput l :: rest ∧ t = applyReset l { s with program := rest }) := by
  unfold step at h
  cases hp : s.program with
  | nil => rw [hp] at h; exact .inl ⟨rfl, by cases h; rfl⟩
  | cons e rest =>
    rw [hp] at h
    cases e with
    | read a n =>
      cases hr : s.inReset with
      | true => simp [hostEvent, hr] at h
      | false =>
        refine .inr (.inl ⟨a, n, rest, rfl, rfl, ?_⟩)
        simpa [hostEvent, hr] using h
    | write a n v =>
      cases hr : s.inReset with
      | true => simp [hostEvent, hr] at h
      | false =>
        refine .inr (.inr (.inl ⟨a, n, v, rest, rfl, rfl, ?_⟩))
        simpa [hostEvent, hr] using h
    | resetInput l => exact .inr (.inr (.inr ⟨l, rest, rfl, by cases h; rfl⟩))

end Sys2Proof.Machine
end

