-- ==== Sys2Proof/Laws/Decode.lean ====
section
/-! SUPPORT. The command word bit by bit (30_encoding.md R90, R91, R104, R111): which OP the fields belong to, when a reserved
bit is set, and the bits of an encoded command. -/

namespace Sys2Proof.Machine

/-! ## OP -/

/-- OP as a number (30_encoding.md R90). -/
theorem opField_toNat (v : Word) : (opField v).toNat = v.toNat % 16 := by simp [opField]

/-- The command that the fields spell has the word's OP. -/
theorem opcode_of_readFields {v : Word} {i : Instr} (h : readFields v = some i) : i.opcode = opField v := by
  apply BitVec.eq_of_toNat_eq
  unfold readFields at h
  split at h <;> simp only [Option.some.injEq, reduceCtorEq] at h <;> subst h <;> simp only [Instr.opcode] <;> simp [*]

/-- OP names no command exactly when it is 0xC or more (30_encoding.md R102). -/
theorem readFields_eq_none_iff (v : Word) : readFields v = none ↔ 12 ≤ (opField v).toNat := by
  have := (opField v).isLt
  unfold readFields
  generalize (opField v).toNat = n at *
  interval_cases n <;> simp

/-! ## Fields as numbers -/

/-- FSEL as a number (30_encoding.md R92). -/
theorem fselField_toNat (v : Word) : (fselField v).toNat = v.toNat / 16 % 8 := by
  simp [fselField, Nat.shiftRight_eq_div_pow]

/-- ODRSEL as a number (30_encoding.md R93). -/
theorem odrselField_toNat (v : Word) : (odrselField v).toNat = v.toNat / 128 % 16 := by
  simp [odrselField, Nat.shiftRight_eq_div_pow]

/-- STSEL as a number (30_encoding.md R94). -/
theorem stselField_toNat (v : Word) : (stselField v).toNat = v.toNat / 16 % 4 := by
  simp [stselField, Nat.shiftRight_eq_div_pow]

/-! ## Reserved bits -/

/-- A bit of [31:4] outside the mask is set: the test of 30_encoding.md R104, bit by bit. -/
theorem outside_mask_ne_zero_iff (v m : Word) :
    (v &&& 0xFFFFFFF0 &&& ~~~m ≠ 0) ↔ ∃ i, 4 ≤ i ∧ i < 32 ∧ v.getLsbD i = true ∧ m.getLsbD i = false := by
  rw [ne_eq, ← not_iff_not, not_not]
  push Not
  constructor
  · intro h i h4 h32 hv
    have := congrArg (fun x => x.getLsbD i) h
    simp only [BitVec.getLsbD_and, BitVec.getLsbD_not, hv, h32, decide_true, Bool.true_and] at this
    have h3 : (0xFFFFFFF0#32).getLsbD i = true := by
      clear this hv h
      interval_cases i <;> simp
    simp [h3] at this
    simpa using this
  · intro h
    apply BitVec.eq_of_getLsbD_eq
    intro i hi
    simp only [BitVec.getLsbD_and, BitVec.getLsbD_not, hi, decide_true, Bool.true_and]
    by_cases h4 : 4 ≤ i
    · have := h i h4 hi
      cases hv : v.getLsbD i <;> simp_all
    · have h3 : (0xFFFFFFF0#32).getLsbD i = false := by interval_cases i <;> simp_all
      simp [h3]

/-- A logical right shift is 0 exactly when the bits from `n` up are. -/
theorem shift_ne_zero_iff (v : Word) (n : Nat) : v >>> n ≠ 0 ↔ ∃ i, n ≤ i ∧ i < 32 ∧ v.getLsbD i = true := by
  rw [ne_eq, ← not_iff_not, not_not]
  push Not
  constructor
  · intro h i h1 h2
    have := congrArg (fun x => x.getLsbD (i - n)) h
    simpa [show n + (i - n) = i by omega] using this
  · intro h
    apply BitVec.eq_of_getLsbD_eq
    intro i hi
    by_cases hh : n + i < 32
    · simpa using h (n + i) (by omega) hh
    · simp [BitVec.getLsbD_of_ge v (n + i) (by omega)]

/-- The first bit above every field of a format (30_encoding.md R91). -/
def fieldsEnd : Format → Nat
  | .N => 4
  | .C2 => 13
  | .C5 => 9
  | .F => 7
  | .R => 11
  | .B => 5
  | .M => 6

/-- No field mask reaches above the format's fields. -/
theorem fieldMask_above (f : Format) (n : Nat) (hn : fieldsEnd f ≤ n) (h : n < 32) : f.fieldMask.getLsbD n = false := by
  cases f <;> simp only [Format.fieldMask, fieldsEnd] at * <;> interval_cases n <;> decide

/-- A bit above the format's fields is a reserved bit (30_encoding.md R103). -/
theorem reservedBitsSet_of_high {v : Word} {f : Format} (hv : v >>> fieldsEnd f ≠ 0) : reservedBitsSet f v = true := by
  simp only [reservedBitsSet, bne_iff_ne]
  rw [outside_mask_ne_zero_iff]
  obtain ⟨k, h1, h2, h3⟩ := (shift_ne_zero_iff v _).1 hv
  refine ⟨k, ?_, h2, h3, fieldMask_above f k h1 h2⟩
  cases f <;> simp only [fieldsEnd] at h1 <;> omega

/-- A command without fields has one word, its OP (30_encoding.md R91, format N). -/
theorem high_of_ne_op {v : Word} (hne : v ≠ (opField v).setWidth 32) : v >>> 4 ≠ 0 := by
  intro h0
  apply hne
  apply BitVec.eq_of_toNat_eq
  have := congrArg BitVec.toNat h0
  simp [opField, BitVec.extractLsb'] at *
  omega

/-- A reserved bit ends the command in RSVBITS (30_encoding.md R104). -/
theorem execute_reserved {v : Word} {i : Instr} (h : readFields v = some i) (hb : reservedBitsSet i.format v = true)
    (s : State) : execute v s = .next (raiseError .rsvbits s) := by
  simp [execute, decode, h, hb]

/-- An illegal field value ends the command in its error (30_encoding.md R104). -/
theorem execute_badField {v : Word} {i : Instr} {e : CmdError} (h : readFields v = some i)
    (hb : reservedBitsSet i.format v = false) (s : State) (hf : fieldError s.params.codes i = some e) :
    execute v s = .next (raiseError e s) := by
  simp [execute, decode, h, hb, hf]

/-! ## Bits of an encoded command (30_encoding.md R111) -/

/-- A field shifted to its place, bit by bit. -/
theorem getLsbD_zext_shift {n : Nat} (v : BitVec n) (lo i : Nat) (hi : i < 32) :
    (v.setWidth 32 <<< lo).getLsbD i = (lo ≤ i && i < lo + n && v.getLsbD (i - lo)) := by
  simp only [BitVec.getLsbD_shiftLeft, BitVec.getLsbD_setWidth, hi, decide_true, Bool.true_and]
  have h32 : i - lo < 32 := by omega
  by_cases h : i - lo < n
  · by_cases h2 : i < lo
    · simp [h2]
    · simp [h2, h32, show lo ≤ i by omega, show i < lo + n by omega]
  · rw [BitVec.getLsbD_of_ge v (i - lo) (by omega)]
    simp

/-- A one-bit field shifted to its place, bit by bit. -/
theorem getLsbD_flagBit_shift (b : Bool) (k n : Nat) (hk : k < 32) : (flagBit b <<< n).getLsbD k = (b && k == n) := by
  cases b
  · simp [flagBit]
  · simp only [flagBit, if_true, BitVec.getLsbD_shiftLeft, hk, decide_true, Bool.true_and]
    rw [Bool.eq_iff_iff]
    simp
    omega

/-- BANK read from a word and put back is the word's bit 4 (30_encoding.md R96). -/
theorem getLsbD_bankBit_shift (v : Word) (k : Nat) (hk : k < 32) :
    (bankBit (bankField v) <<< 4).getLsbD k = (v.getLsbD 4 && k == 4) := by
  have : bankBit (bankField v) = flagBit (v.getLsbD 4) := by unfold bankField; cases v.getLsbD 4 <;> rfl
  rw [this, getLsbD_flagBit_shift _ _ _ hk]

/-- An encoded command has its OP in bits [3:0] and its operands elsewhere. -/
theorem getLsbD_encode (i : Instr) (k : Nat) :
    (encode i).getLsbD k = ((i.opcode.getLsbD k && decide (k < 32)) || (operandBits i).getLsbD k) := by
  simp only [encode, BitVec.getLsbD_or, BitVec.getLsbD_setWidth]
  rw [Bool.and_comm]

end Sys2Proof.Machine
end

