-- ==== Sys2Proof/Laws/Operands.lean ====
section
/-! SUPPORT. The small laws of the bit-field and number helpers (00_scope.md R17, R18), stated bit by bit and integer by
integer, for the codec's and the accumulators' claims. -/

namespace Sys2Proof.Machine

/-! ## get and put (00_scope.md R18) -/

/-- A bit of a field is the wire value's bit at the field's place. -/
theorem getLsbD_getField (w : Byte) (lo n i : Nat) :
    (getField w lo n).getLsbD i = (decide (i < n) && w.getLsbD (lo + i)) := by
  simp [getField, BitVec.getLsbD_extractLsb']

/-- The mask of a field has exactly the field's bits. -/
theorem getLsbD_fieldMaskAt (lo n i : Nat) (hn : n ≤ 8) :
    (fieldMaskAt lo n).getLsbD i = (decide (i < 8) && inField lo n i) := by
  simp only [fieldMaskAt, BitVec.getLsbD_shiftLeft, BitVec.getLsbD_setWidth, BitVec.getLsbD_allOnes, inField]
  rw [Bool.eq_iff_iff]
  simp only [Bool.and_eq_true, Bool.not_eq_true', decide_eq_true_eq, decide_eq_false_iff_not]
  omega

/-- A bit of `put`: the new value's bit inside the field, the old bit outside. -/
theorem getLsbD_putField {n : Nat} (w : Byte) (lo : Nat) (v : BitVec n) (i : Nat) (hi : i < 8) (hn : n ≤ 8) :
    (putField w lo v).getLsbD i = if inField lo n i then v.getLsbD (i - lo) else w.getLsbD i := by
  simp only [putField, BitVec.getLsbD_or, BitVec.getLsbD_and, BitVec.getLsbD_not, getLsbD_fieldMaskAt lo n i hn,
    BitVec.getLsbD_shiftLeft, BitVec.getLsbD_setWidth, hi, decide_true, Bool.true_and]
  by_cases h : inField lo n i = true
  · have h' := h
    simp only [inField, Bool.and_eq_true, decide_eq_true_eq] at h'
    have h1 : ¬ i < lo := by omega
    have h2 : i - lo < 8 := by omega
    simp [h, h1, h2]
  · simp only [Bool.not_eq_true] at h
    have h' := h
    simp only [inField, Bool.and_eq_false_iff, decide_eq_false_iff_not] at h'
    have hz : (!decide (i < lo) && (decide (i - lo < 8) && v.getLsbD (i - lo))) = false := by
      by_cases hlo : i < lo
      · simp [hlo]
      · have : n ≤ i - lo := by omega
        simp [BitVec.getLsbD_of_ge v (i - lo) this]
    simp [h, hz]

/-- Reading a field just written gives the value written. -/
theorem getField_putField_same {n : Nat} (w : Byte) (lo : Nat) (v : BitVec n) (h : lo + n ≤ 8) :
    getField (putField w lo v) lo n = v := by
  apply BitVec.eq_of_getLsbD_eq
  intro i hi
  rw [getLsbD_getField, getLsbD_putField w lo v (lo + i) (by omega) (by omega)]
  have : inField lo n (lo + i) = true := by simp [inField, hi]
  simp [hi, this]

/-- Writing one field leaves another alone. -/
theorem getField_putField_apart {n m : Nat} (w : Byte) (lo lo' : Nat) (v : BitVec n)
    (hn : lo + n ≤ 8) (hm : lo' + m ≤ 8) (h : fieldsApart lo n lo' m = true) :
    getField (putField w lo v) lo' m = getField w lo' m := by
  simp only [fieldsApart, Bool.or_eq_true, decide_eq_true_eq] at h
  apply BitVec.eq_of_getLsbD_eq
  intro i hi
  rw [getLsbD_getField, getLsbD_getField, getLsbD_putField w lo v (lo' + i) (by omega) (by omega)]
  have : inField lo n (lo' + i) = false := by
    rw [← Bool.not_eq_true]
    simp only [inField, Bool.and_eq_true, decide_eq_true_eq]
    omega
  simp [this]

/-- Writing a field's own value changes nothing. -/
theorem putField_getField (w : Byte) (lo n : Nat) (hn : n ≤ 8) : putField w lo (getField w lo n) = w := by
  apply BitVec.eq_of_getLsbD_eq
  intro i hi
  rw [getLsbD_putField w lo _ i hi hn]
  split
  · rename_i h
    simp only [inField, Bool.and_eq_true, decide_eq_true_eq] at h
    rw [getLsbD_getField]
    have h1 : i - lo < n := by omega
    have h2 : lo + (i - lo) = i := by omega
    simp [h1, h2]
  · rfl

/-! ## Integers -/

/-- A raw sample is a signed 16-bit number (42_scaler.md R203). -/
theorem rawSample_bounds (arg : Word) : -32768 ≤ rawSample arg ∧ rawSample arg ≤ 32767 := by
  have h1 : (arg.extractLsb' 0 16).toInt < 2 ^ 15 := BitVec.toInt_lt
  have h2 : -2 ^ 15 ≤ (arg.extractLsb' 0 16).toInt := BitVec.le_toInt _
  unfold rawSample
  omega

/-- `to_bits32` keeps an integer that fits (00_scope.md R17). -/
theorem sext32_toBits32 (i : Int) (h1 : -2147483648 ≤ i) (h2 : i < 2147483648) : sext32 (toBits32 i) = i := by
  simp only [sext32, toBits32, BitVec.toInt_ofInt]
  rw [Int.bmod_eq_of_le] <;> norm_num <;> omega

/-- `zext_32` of a number below 2^32 keeps it. -/
theorem toNat_natBits32 (n : Nat) (h : n < 4294967296) : (natBits32 n).toNat = n := by
  simp only [natBits32, BitVec.toNat_ofNat]
  exact Nat.mod_eq_of_lt (by norm_num; exact h)

end Sys2Proof.Machine
end

