-- ==== Sys2Proof/Laws/Codec.lean ====
section
/-! SUPPORT. The codec functions field by field (41_register_codec.md), over every well-formed layout, and the bits of the
result words. -/

namespace Sys2Proof.Machine

/-! ## Encoders -/

/-- fieldsApart is symmetric. -/
theorem fieldsApart_symm {a b c d : Nat} (h : fieldsApart a b c d = true) : fieldsApart c d a b = true := by
  simp only [fieldsApart, Bool.or_eq_true, decide_eq_true_eq] at *
  omega

/-- C2ENC's byte, field by field (41_register_codec.md R146, R150). -/
theorem encodeControl2_fields (p : Params) (hp : p.layout.wf = true) (w : Byte) (f : BitVec 3) (o : BitVec 4)
    (uf uo : Bool) :
    getField (encodeControl2 p w f o uf uo) p.layout.c2Fs125 1 =
      (if uf then (fsEnc f).1 else getField w p.layout.c2Fs125 1) ∧
    getField (encodeControl2 p w f o uf uo) p.layout.c2Fsg 2 =
      (if uf then (fsEnc f).2 else getField w p.layout.c2Fsg 2) ∧
    getField (encodeControl2 p w f o uf uo) p.layout.c2Odr 4 =
      (if uo then odrWire p o else getField w p.layout.c2Odr 4) ∧
    ∀ i, i < 8 → p.layout.c2Unrelated i = true → (encodeControl2 p w f o uf uo).getLsbD i = w.getLsbD i := by
  simp only [Layout.wf, Bool.and_eq_true, decide_eq_true_eq] at hp
  obtain ⟨⟨⟨⟨⟨⟨⟨⟨⟨h1, h2⟩, h3⟩, -⟩, -⟩, -⟩, a1⟩, a2⟩, a3⟩, -⟩ := hp
  refine ⟨?_, ?_, ?_, ?_⟩
  iterate 3
    cases uf <;> cases uo <;>
      simp [encodeControl2, putFullScale, putRate, getField_putField_same, getField_putField_apart, *,
        fieldsApart_symm a1, fieldsApart_symm a2, fieldsApart_symm a3]
  intro i hi hu
  simp only [Layout.c2Unrelated, Bool.and_eq_true, Bool.not_eq_true'] at hu
  obtain ⟨⟨u1, u2⟩, u3⟩ := hu
  cases uf <;> cases uo <;>
    simp only [encodeControl2, putFullScale, putRate, getLsbD_putField _ _ _ _ hi, show (1 : Nat) ≤ 8 by omega,
      show (2 : Nat) ≤ 8 by omega, show (4 : Nat) ≤ 8 by omega, u1, u2, u3, if_true, if_false, Bool.false_eq_true]

/-- C5ENC's byte, field by field (41_register_codec.md R146, R160). -/
theorem encodeControl5_fields (p : Params) (hp : p.layout.wf = true) (w : Byte) (st : BitVec 2) (us rn ur : Bool) :
    getField (encodeControl5 p w st us rn ur) p.layout.c5St 2 = (if us then st else getField w p.layout.c5St 2) ∧
    getField (encodeControl5 p w st us rn ur) p.layout.c5Rnd 1 =
      (if ur then rndWire p rn else getField w p.layout.c5Rnd 1) ∧
    ∀ i, i < 8 → p.layout.c5Unrelated i = true → (encodeControl5 p w st us rn ur).getLsbD i = w.getLsbD i := by
  simp only [Layout.wf, Bool.and_eq_true, decide_eq_true_eq] at hp
  obtain ⟨⟨⟨⟨⟨⟨⟨⟨⟨-, -⟩, -⟩, h4⟩, h5⟩, -⟩, -⟩, -⟩, -⟩, a4⟩ := hp
  refine ⟨?_, ?_, ?_⟩
  iterate 2
    cases us <;> cases ur <;>
      simp [encodeControl5, getField_putField_same, getField_putField_apart, *, fieldsApart_symm a4]
  intro i hi hu
  simp only [Layout.c5Unrelated, Bool.and_eq_true, Bool.not_eq_true'] at hu
  obtain ⟨u1, u2⟩ := hu
  cases us <;> cases ur <;>
    simp only [encodeControl5, getLsbD_putField _ _ _ _ hi, show (1 : Nat) ≤ 8 by omega, show (2 : Nat) ≤ 8 by omega,
      u1, u2, if_true, if_false, Bool.false_eq_true]

/-! ## Rates -/

/-- Well-formed codes name eleven different rate codes (log 10). -/
theorem odrWire_wf {p : Params} (hp : p.codes.wf = true) : p.codes.odrWire.length = 11 ∧ p.codes.odrWire.Nodup := by
  simp only [Codes.wf, Bool.and_eq_true, beq_iff_eq, decide_eq_true_eq] at hp
  exact ⟨hp.1.1.1, hp.1.1.2⟩

/-- The decoder inverts the rate codes (41_register_codec.md R145). -/
theorem decodeRate_odrWire {p : Params} (hp : p.codes.wf = true) (o : BitVec 4) (ho : o ≤ 10) :
    decodeRate p (odrWire p o) = (o, false) := by
  obtain ⟨h1, h2⟩ := odrWire_wf hp
  have hlt : o.toNat < p.codes.odrWire.length := by
    rw [h1]
    have := BitVec.le_def.1 ho
    simp at this
    omega
  have : odrIndex p (odrWire p o) = some o.toNat := by
    simp only [odrIndex, odrWire, List.getD_eq_getElem _ _ hlt]
    rw [List.idxOf?_eq_some_iff]
    refine ⟨hlt, rfl, ?_⟩
    intro j hj he
    have := (List.Nodup.getElem_inj_iff h2).1 he
    omega
  simp [decodeRate, this]

/-- A code that is not reserved is the code of the rate it decodes to. -/
theorem odrWire_decodeRate {p : Params} (hp : p.codes.wf = true) (o : BitVec 4) (h : (decodeRate p o).2 = false) :
    odrWire p (decodeRate p o).1 = o := by
  obtain ⟨h1, h2⟩ := odrWire_wf hp
  unfold decodeRate at *
  cases hi : odrIndex p o with
  | none => rw [hi] at h; cases h
  | some k =>
    simp only [odrIndex, List.idxOf?_eq_some_iff] at hi
    obtain ⟨hk, he, _⟩ := hi
    simp only [odrWire, BitVec.toNat_ofNat, Nat.mod_eq_of_lt (show k < 2 ^ 4 by omega)]
    rw [List.getD_eq_getElem _ _ hk, he]

/-! ## Result words -/

/-- A flag at its place, bit by bit. -/
theorem getLsbD_flagAt (k : Nat) (b : Bool) (i : Nat) (hi : i < 32) : (flagAt k b).getLsbD i = (i == k && b) := by
  cases b
  · simp [flagAt]
  · simp only [flagAt, if_true, BitVec.getLsbD_twoPow]
    rw [Bool.eq_iff_iff]
    simp
    omega

/-- C2DEC's result, bit by bit (41_register_codec.md R155). -/
theorem getLsbD_packControl2 (c : Control2) (i : Nat) (hi : i < 32) : (packControl2 c).getLsbD i =
    ((4 ≤ i && i < 7 && c.fsel.getLsbD (i - 4)) || (7 ≤ i && i < 11 && c.odrsel.getLsbD (i - 7)) ||
      (i == 16 && c.noncanon) || (i == 17 && c.odrrsv) || (i == 18 && c.off)) := by
  simp only [packControl2, zext32, BitVec.getLsbD_or, getLsbD_flagAt _ _ _ hi,
    getLsbD_zext_shift _ _ _ hi]

/-- FSEL of C2DEC's result stands at the place of a C2 word's FSEL (41_register_codec.md R155). -/
theorem fselField_packControl2 (c : Control2) : fselField (packControl2 c) = c.fsel := by
  apply BitVec.eq_of_getLsbD_eq
  intro i hi
  simp only [fselField, BitVec.getLsbD_extractLsb']
  rw [getLsbD_packControl2 _ _ (by omega)]
  interval_cases i <;> simp

/-- ODRSEL of C2DEC's result stands at the place of a C2 word's ODRSEL (41_register_codec.md R155). -/
theorem odrselField_packControl2 (c : Control2) : odrselField (packControl2 c) = c.odrsel := by
  apply BitVec.eq_of_getLsbD_eq
  intro i hi
  simp only [odrselField, BitVec.getLsbD_extractLsb']
  rw [getLsbD_packControl2 _ _ (by omega)]
  interval_cases i <;> simp

/-- C5DEC's result, bit by bit (41_register_codec.md R165). -/
theorem getLsbD_packControl5 (c : Control5) (i : Nat) (hi : i < 32) : (packControl5 c).getLsbD i =
    ((4 ≤ i && i < 6 && c.st.getLsbD (i - 4)) || (i == 7 && c.rnd) || (i == 16 && c.strsv) || (i == 17 && c.stactive) ||
      (i == 18 && c.stneg)) := by
  simp only [packControl5, zext32, BitVec.getLsbD_or, getLsbD_flagAt _ _ _ hi,
    getLsbD_zext_shift _ _ _ hi]

/-- ST of C5DEC's result stands at the place of a C5 word's STSEL (41_register_codec.md R165). -/
theorem stselField_packControl5 (c : Control5) : stselField (packControl5 c) = c.st := by
  apply BitVec.eq_of_getLsbD_eq
  intro i hi
  simp only [stselField, BitVec.getLsbD_extractLsb']
  rw [getLsbD_packControl5 _ _ (by omega)]
  interval_cases i <;> simp

/-- STCMP's RES0, bit by bit (44_selftest_compare.md R265). -/
theorem getLsbD_packVerdict (a b c : Bool) (i : Nat) (hi : i < 32) : (packVerdict a b c).getLsbD i =
    ((i == 0 && (a && b && c)) || (i == 1 && a) || (i == 2 && b) || (i == 3 && c)) := by
  simp only [packVerdict, BitVec.getLsbD_or, getLsbD_flagAt _ _ _ hi]

end Sys2Proof.Machine
end

