-- ==== Sys2Proof/Laws/Commands.lean ====
section
/-! SUPPORT. What a command can do, said once for all twelve: how it ends, and what it does to the accumulator banks; and the
arithmetic of a bank that meets the invariant. -/

namespace Sys2Proof.Machine

/-! ## How a command ends (30_encoding.md R104, R302) -/

/-- A checked command whose legal end has STAT 0 ends there, or in its error. -/
theorem checked_cases (e : Option CmdError) (s t : State) (h : t.stat = 0) :
    (∃ t', checked e s t = .next t' ∧ t'.stat = 0) ∨ ∃ c, checked e s t = .next (raiseError c s) ∧ e = some c := by
  cases e with
  | none => exact .inl ⟨_, rfl, h⟩
  | some c => exact .inr ⟨c, rfl, rfl⟩

/-- A command ends with STAT 0, or in a field's error, or in ACCFULL for ACCADD or CNTZERO for STCMP. -/
theorem exec_ends (i : Instr) (s : State) :
    (∃ t, exec i s = .next t ∧ t.stat = 0) ∨
    ∃ e, exec i s = .next (raiseError e s) ∧
      (fieldError s.params.codes i = some e ∨ (i.opcode = 10 ∧ e = .accfull) ∨ (i.opcode = 11 ∧ e = .cntzero)) := by
  cases i with
  | c2enc f o a b =>
    exact (checked_cases (fieldError s.params.codes (.c2enc f o a b)) s _ rfl).imp id (fun ⟨c, h1, h2⟩ => ⟨c, h1, .inl h2⟩)
  | c5enc f o a b =>
    exact (checked_cases (fieldError s.params.codes (.c5enc f o a b)) s _ rfl).imp id (fun ⟨c, h1, h2⟩ => ⟨c, h1, .inl h2⟩)
  | scale f => exact (checked_cases (fieldError s.params.codes (.scale f)) s _ rfl).imp id (fun ⟨c, h1, h2⟩ => ⟨c, h1, .inl h2⟩)
  | drdytmo o => exact (checked_cases (fieldError s.params.codes (.drdytmo o)) s _ rfl).imp id (fun ⟨c, h1, h2⟩ => ⟨c, h1, .inl h2⟩)
  | accadd b =>
    refine (checked_cases (addError (bankOf s b)) s _ rfl).imp id (fun ⟨c, h1, h2⟩ => ⟨c, h1, .inr (.inl ⟨rfl, ?_⟩)⟩)
    simp only [addError] at h2
    split at h2 <;> simp_all
  | stcmp m =>
    refine (checked_cases (compareError s.bank0 s.bank1) s _ rfl).imp id
      (fun ⟨c, h1, h2⟩ => ⟨c, h1, .inr (.inr ⟨rfl, ?_⟩)⟩)
    simp only [compareError] at h2
    split at h2 <;> simp_all
  | nop => exact .inl ⟨_, rfl, rfl⟩
  | c2dec => exact .inl ⟨_, rfl, rfl⟩
  | c5dec => exact .inl ⟨_, rfl, rfl⟩
  | stadec => exact .inl ⟨_, rfl, rfl⟩
  | stcfg m => exact .inl ⟨_, rfl, rfl⟩
  | accclr b => exact .inl ⟨_, rfl, rfl⟩

/-! ## The banks (10_state.md R35) -/

/-- A checked command whose legal end writes results only leaves both banks alone. -/
theorem checked_finish_banks {e : Option CmdError} {r0 r1 r2 r3 : Word} {s t : State}
    (h : checked e s (finish r0 r1 r2 r3 s) = .next t) : t.bank0 = s.bank0 ∧ t.bank1 = s.bank1 := by
  rcases checked_eq_next h with ⟨_, rfl⟩ | ⟨c, _, rfl⟩ <;> exact ⟨rfl, rfl⟩

/-- What a command does to the banks: nothing, or it empties the bank ACCCLR names, or it adds the sample to the bank ACCADD
names, which was not full. -/
theorem exec_banks {i : Instr} {s t : State} (h : exec i s = .next t) :
    (t.bank0 = s.bank0 ∧ t.bank1 = s.bank1 ∧ (∀ b, i ≠ .accclr b) ∧ ∀ b, i = .accadd b → (bankOf s b).cnt = 255) ∨
    (∃ b, i = .accclr b ∧ bankOf t b = AccBank.empty ∧ bankOf t b.other = bankOf s b.other) ∨
    ∃ b, i = .accadd b ∧ (bankOf s b).cnt ≠ 255 ∧ bankOf t b = accumulate (bankOf s b) s ∧
      bankOf t b.other = bankOf s b.other := by
  cases i with
  | accclr b => cases h; exact .inr (.inl ⟨b, rfl, by simp, by simp⟩)
  | accadd b =>
    rcases checked_eq_next h with ⟨he, rfl⟩ | ⟨c, he, rfl⟩
    · refine .inr (.inr ⟨b, rfl, ?_, by simp, by simp⟩)
      intro hc
      simp [addError, hc, accCntMax] at he
    · refine .inl ⟨rfl, rfl, by simp, ?_⟩
      intro b' hb
      cases hb
      simp only [addError] at he
      split at he
      · assumption
      · cases he
  | stcmp m => exact .inl ⟨(checked_finish_banks h).1, (checked_finish_banks h).2, by simp, by simp⟩
  | c2enc f o a b => exact .inl ⟨(checked_finish_banks h).1, (checked_finish_banks h).2, by simp, by simp⟩
  | c5enc f o a b => exact .inl ⟨(checked_finish_banks h).1, (checked_finish_banks h).2, by simp, by simp⟩
  | scale f => exact .inl ⟨(checked_finish_banks h).1, (checked_finish_banks h).2, by simp, by simp⟩
  | drdytmo o => exact .inl ⟨(checked_finish_banks h).1, (checked_finish_banks h).2, by simp, by simp⟩
  | nop => cases h; exact .inl ⟨rfl, rfl, by simp, by simp⟩
  | c2dec => cases h; exact .inl ⟨rfl, rfl, by simp, by simp⟩
  | c5dec => cases h; exact .inl ⟨rfl, rfl, by simp, by simp⟩
  | stadec => cases h; exact .inl ⟨rfl, rfl, by simp, by simp⟩
  | stcfg m => cases h; exact .inl ⟨rfl, rfl, by simp, by simp⟩

/-- A count that is not full gains exactly one. -/
theorem cnt_succ {c : Word} (h : c.toNat ≤ 255) (h' : c ≠ 255) : (c + 1).toNat = c.toNat + 1 ∧ c.toNat < 255 := by
  have : c.toNat ≠ 255 := by
    intro h2
    apply h'
    apply BitVec.eq_of_toNat_eq
    rw [h2]
    rfl
  refine ⟨?_, by omega⟩
  rw [BitVec.toNat_add]
  simp
  omega

/-- Adding a sample to a sum of fewer than 255 samples does not wrap (44_selftest_compare.md R255). -/
theorem sext32_addSample {sum cnt : Word} (arg : Word) (h : cnt.toNat < 255) (hs : SumWf sum cnt) :
    sext32 (addSample sum arg) = sext32 sum + rawSample arg := by
  have := rawSample_bounds arg
  obtain ⟨a, b⟩ := hs
  apply sext32_toBits32 <;> omega

end Sys2Proof.Machine
end

