-- ==== Sys2Proof/Laws/PerInstr.lean ====
section
/-! SUPPORT. Facts about every command as syntax, one lemma per command. -/

namespace Sys2Proof.Laws

/-- The operand fields never touch OP, and they stay inside the format's field mask (30_encoding.md R90, R91, R111). -/
def OpcodeField.Statement (i : Instr) : Prop :=
  operandBits i &&& 0xF = 0 ∧ operandBits i &&& ~~~i.format.fieldMask = 0

namespace OpcodeField

theorem nop : Statement .nop := by constructor <;> rfl

theorem c2enc (fsel : BitVec 3) (odrsel : BitVec 4) (ufs uodr : Bool) : Statement (.c2enc fsel odrsel ufs uodr) := by
  revert fsel odrsel ufs uodr
  unfold Statement
  decide

theorem c2dec : Statement .c2dec := by constructor <;> rfl

theorem c5enc (stsel : BitVec 2) (ust rnd urnd : Bool) : Statement (.c5enc stsel ust rnd urnd) := by
  revert stsel ust rnd urnd
  unfold Statement
  decide

theorem c5dec : Statement .c5dec := by constructor <;> rfl

theorem stadec : Statement .stadec := by constructor <;> rfl

theorem scale (fsel : BitVec 3) : Statement (.scale fsel) := by
  revert fsel
  unfold Statement
  decide

theorem drdytmo (odrsel : BitVec 4) : Statement (.drdytmo odrsel) := by
  revert odrsel
  unfold Statement
  decide

theorem stcfg (mode : BitVec 2) : Statement (.stcfg mode) := by
  revert mode
  unfold Statement
  decide

theorem accclr (bank : Bank) : Statement (.accclr bank) := by cases bank <;> constructor <;> rfl

theorem accadd (bank : Bank) : Statement (.accadd bank) := by cases bank <;> constructor <;> rfl

theorem stcmp (mode : BitVec 2) : Statement (.stcmp mode) := by
  revert mode
  unfold Statement
  decide

end OpcodeField

end Sys2Proof.Laws
end

