-- ==== Sys2Proof/Machine/Sensor.lean ====
section
/-! DEFINITION. What the spec tells the host about the sensor: its register map (00_scope.md R15) and how the host forms a raw
sample (20_memory.md R70). The block never reaches these addresses; the host moves the bytes. -/

namespace Sys2Proof.Machine

/-- The sensor's identity register (00_scope.md R15, read-only). -/
def sensorIdentityAddr : Byte := 0x0F

/-- The value the identity register is expected to read (00_scope.md R15). -/
def sensorIdentity : Byte := 0x6C

/-- Control-2: full scale and output data rate (00_scope.md R15). -/
def sensorControl2Addr : Byte := 0x11

/-- Control-5: self-test and rounding (00_scope.md R15). -/
def sensorControl5Addr : Byte := 0x14

/-- Status: the data-ready flags (00_scope.md R15). -/
def sensorStatusAddr : Byte := 0x1E

/-- The data burst, X low, X high, Y low, Y high, Z low, Z high (00_scope.md R15; 20_memory.md R70). -/
def sensorBurstAddrs : List Byte := [0x22, 0x23, 0x24, 0x25, 0x26, 0x27]

/-- A raw sample as the host writes it to an ARG register: `high_byte * 256 + low_byte` in bits [15:0] (20_memory.md R70). -/
def hostSample (low high : Byte) : Word := BitVec.ofNat 32 (high.toNat * 256 + low.toNat)

end Sys2Proof.Machine
end

