-- ==== Sys2Proof/Tests/Slice0.lean ====
section
/-! SUPPORT. The model's own tests. Expected values are the spec's: the encodings of 30_encoding.md, the examples of the
command rules and the vectors of 95_test_vectors.md, named in each docstring. Then one witness theorem for each statement
with hypotheses: concrete states and operands that meet them, at the ends of their ranges. -/

namespace Sys2Proof.Tests

open Sys2Proof.Machine

/-! ## Helpers -/

/-- STAT and the four results of an outcome that goes on. -/
def results (o : Host.Outcome State Fault Refusal) : Option (List Word) :=
  match o with
  | .next t => some [t.stat, t.res0, t.res1, t.res2, t.res3]
  | .fault _ => none
  | .refused _ => none

/-- The two banks after an outcome that goes on. -/
def banks (o : Host.Outcome State Fault Refusal) : Option (AccBank × AccBank) :=
  match o with
  | .next t => some (t.bank0, t.bank1)
  | .fault _ => none
  | .refused _ => none

/-- STAT, RES0, CMD after a write of `v` to CMD in a state with RES0 = 0xAAAA (V-ERR). -/
def failed (v : Word) : Option (List Word) :=
  match busWrite 0x00 4 v { State.reset with res0 := 0xAAAA } with
  | .next t => some [t.stat, t.res0, t.cmd]
  | .fault _ => none
  | .refused _ => none

/-- Reset with ARG0 to ARG2. -/
def args (a b c : Word) : State := { State.reset with arg0 := a, arg1 := b, arg2 := c }

/-- A bank with one value in its sums. -/
def bank (sum cnt : Word) : AccBank := { x := sum, y := sum, z := sum, cnt := cnt }

/-- Reset with two banks. -/
def withBanks (b0 b1 : AccBank) : State := { State.reset with bank0 := b0, bank1 := b1 }

/-- Reset with a host program. -/
def running (l : List HostEvent) : State := { State.reset with program := l }

/-- A well-formed parameter record that is not the default one: every field elsewhere, the codes in another order. -/
def otherParams : Params :=
  { layout := { c2Fs125 := 7, c2Fsg := 5, c2Odr := 0, c5St := 6, c5Rnd := 0, srGda := 7 }
    codes := { odrWire := [15, 1, 2, 3, 4, 5, 6, 7, 8, 9, 0], stNone := 1#2, stPos := 2#2, stNeg := 0#2, stRsv := 3#2,
               rndOn := 0#1, rndOff := 1#1 }
    tmo := [0, 90, 80, 70, 60, 50, 40, 30, 20, 10, 9] }

/-! ## Well-formed commands: an ill-formed one for each check (30_encoding.md R92, R93, R94; D25) -/

theorem test_wf_c2enc_fsel : WellFormed defaultCodes (.c2enc 5 0 false false) = false := by decide
theorem test_wf_c2enc_odrsel : WellFormed defaultCodes (.c2enc 0 11 false false) = false := by decide
theorem test_wf_c5enc_stsel : WellFormed defaultCodes (.c5enc 0b10 false false false) = false := by decide
theorem test_wf_scale_fsel : WellFormed defaultCodes (.scale 7) = false := by decide
theorem test_wf_drdytmo_odrsel : WellFormed defaultCodes (.drdytmo 15) = false := by decide
theorem test_wf_ends : WellFormed defaultCodes (.c2enc 4 10 true true) = true ∧
    WellFormed defaultCodes (.c5enc 0b11 true true true) = true ∧ WellFormed defaultCodes (.scale 4) = true ∧
    WellFormed defaultCodes (.drdytmo 10) = true := by decide
theorem test_params_wf : defaultParams.wf = true ∧ otherParams.wf = true := by decide
/-- 43_drdy_timeout.md R222: one timeout for each rate. -/
theorem test_params_tmo : ({ defaultParams with tmo := [0] } : Params).wf = false := by decide
theorem test_params_overlap : ({ defaultLayout with c2Fsg := 3 } : Layout).wf = false := by decide

/-! ## Decoding: words written out from the bit pictures of 30_encoding.md R91 -/

theorem test_decode_nop : decode defaultCodes 0b00000000000000000000000000000000 = .ok .nop := by rfl
/-- UODR 1, UFS 0, ODRSEL 1010, FSEL 100, OP 0001. -/
theorem test_decode_c2enc : decode defaultCodes 0b00000000000000000001010101000001 = .ok (.c2enc 4 10 false true) := by rfl
theorem test_decode_c2dec : decode defaultCodes 0b00000000000000000000000000000010 = .ok .c2dec := by rfl
/-- URND 1, RND 0, UST 1, STSEL 11, OP 0011. -/
theorem test_decode_c5enc : decode defaultCodes 0b00000000000000000000000101110011 = .ok (.c5enc 0b11 true false true) := by rfl
theorem test_decode_c5dec : decode defaultCodes 0b00000000000000000000000000000100 = .ok .c5dec := by rfl
theorem test_decode_stadec : decode defaultCodes 0b00000000000000000000000000000101 = .ok .stadec := by rfl
/-- FSEL 011, OP 0110. -/
theorem test_decode_scale : decode defaultCodes 0b00000000000000000000000000110110 = .ok (.scale 3) := by rfl
/-- ODRSEL 0111, OP 0111. -/
theorem test_decode_drdytmo : decode defaultCodes 0b00000000000000000000001110000111 = .ok (.drdytmo 7) := by rfl
/-- MODE 10, OP 1000. -/
theorem test_decode_stcfg : decode defaultCodes 0b00000000000000000000000000101000 = .ok (.stcfg 2) := by rfl
/-- BANK 1, OP 1001. -/
theorem test_decode_accclr : decode defaultCodes 0b00000000000000000000000000011001 = .ok (.accclr .bank1) := by rfl
/-- BANK 0, OP 1010. -/
theorem test_decode_accadd : decode defaultCodes 0b00000000000000000000000000001010 = .ok (.accadd .bank0) := by rfl
/-- MODE 01, OP 1011. -/
theorem test_decode_stcmp : decode defaultCodes 0b00000000000000000000000000011011 = .ok (.stcmp 1) := by rfl
/-- R111's printed words, the other way. -/
theorem test_encode_printed : encode (c2set 2 4) = 0x00001A21 ∧ encode (c5setst 1) = 0x00000053 ∧
    encode (.scale 4) = 0x00000046 ∧ encode (.drdytmo 7) = 0x00000387 ∧ encode (.stcmp 0) = 0x0000000B := by decide

/-! ## Error words (95_test_vectors.md V-ERR): STAT as given, RES0 kept, CMD the word -/

theorem test_err_reserved : failed 0xFFFFFFFE = some [0x11, 0xAAAA, 0xFFFFFFFE] ∧
    failed 0x0000000C = some [0x11, 0xAAAA, 0x0000000C] := by decide
theorem test_err_rsvbits : failed 0x80000000 = some [0x21, 0xAAAA, 0x80000000] ∧
    failed 0x00101A21 = some [0x21, 0xAAAA, 0x00101A21] ∧ failed 0x00000097 = some [0x21, 0xAAAA, 0x00000097] := by decide
theorem test_err_badfs : failed 0x00000071 = some [0x31, 0xAAAA, 0x00000071] ∧
    failed 0x00000056 = some [0x31, 0xAAAA, 0x00000056] := by decide
theorem test_err_badodr : failed 0x00000781 = some [0x41, 0xAAAA, 0x00000781] ∧
    failed 0x00000587 = some [0x41, 0xAAAA, 0x00000587] := by decide
theorem test_err_badst : failed 0x00000023 = some [0x51, 0xAAAA, 0x00000023] ∧
    failed 0x00000063 = some [0x51, 0xAAAA, 0x00000063] := by decide
/-- V-ERR rows 15 and 16: the order of the checks. -/
theorem test_err_priority : failed 0x000007F1 = some [0x31, 0xAAAA, 0x000007F1] ∧
    failed 0x001007F1 = some [0x21, 0xAAAA, 0x001007F1] := by decide

/-! ## The commands (95_test_vectors.md part 2): STAT, RES0, RES1, RES2, RES3 -/

/-- V-NOP row 2. -/
theorem test_nop : results (exec .nop { State.reset with stat := 0x31, res0 := 0x45 }) = some [0, 0x45, 0, 0, 0] := by decide
/-- V-C2ENC rows 41 and 43. -/
theorem test_c2enc_partial : results (exec (c2setfs 4) (args 0x63 0 0)) = some [0, 0x6D, 0, 0, 0] ∧
    results (exec (c2setodr 0) (args 0x6D 0 0)) = some [0, 0x0D, 0, 0, 0] := by decide
/-- V-C2ENC rows 24 and 45. -/
theorem test_c2enc_full : results (exec (c2set 0 10) (args 0xFF 0 0)) = some [0, 0xA3, 0, 0, 0] ∧
    results (exec (c2set 3 3) (args 0x1FF 0 0)) = some [0, 0x39, 0, 0, 0] := by decide
/-- V-C2DEC rows 8 and 9. -/
theorem test_c2dec : results (exec .c2dec (args 0x45 0 0)) = some [0, 0x220, 0, 0, 0] ∧
    results (exec .c2dec (args 0x4A 0 0)) = some [0, 0x10200, 0, 0, 0] := by decide
/-- V-C2DEC rows 1, 12 and 13. -/
theorem test_c2dec_flags : results (exec .c2dec (args 0x00 0 0)) = some [0, 0x40010, 0, 0, 0] ∧
    results (exec .c2dec (args 0xB0 0 0)) = some [0, 0x20590, 0, 0, 0] ∧
    results (exec .c2dec (args 0xFF 0 0)) = some [0, 0x30780, 0, 0, 0] := by decide
/-- V-C5ENC rows 4 and 11. -/
theorem test_c5enc : results (exec (.c5enc 1 true true true) (args 0 0 0)) = some [0, 0x44, 0, 0, 0] ∧
    results (exec (.c5enc 3 true false true) (args 0xFF 0 0)) = some [0, 0xBF, 0, 0, 0] := by decide
/-- V-C5ENC rows 13, 15 and 16. -/
theorem test_c5enc_partial : results (exec (c5setst 3) (args 0xB3 0 0)) = some [0, 0xBF, 0, 0, 0] ∧
    results (exec (c5setrnd false) (args 0x4C 0 0)) = some [0, 0x0C, 0, 0, 0] ∧
    results (exec (.c5enc 0 false true false) (args 0x4C 0 0)) = some [0, 0x4C, 0, 0, 0] := by decide
/-- V-C5DEC rows 2, 7 and 10. -/
theorem test_c5dec : results (exec .c5dec (args 0x04 0 0)) = some [0, 0x20010, 0, 0, 0] ∧
    results (exec .c5dec (args 0x48 0 0)) = some [0, 0x100A0, 0, 0, 0] ∧
    results (exec .c5dec (args 0xFF 0 0)) = some [0, 0x600B0, 0, 0, 0] := by decide
/-- V-STADEC rows 7 and 9. -/
theorem test_stadec : results (exec .stadec (args 0xFD 0 0)) = some [0, 0, 0, 0, 0] ∧
    results (exec .stadec (args 0x102 0 0)) = some [0, 1, 0, 0, 0] := by decide
/-- V-SCALE row 10. -/
theorem test_scale_extremes : results (exec (.scale 4) (args 0x7FFF 0x8000 0xFFFF)) =
    some [0, 0x0117FDD0, 0xFEE80000, 0xFFFFFDD0, 560] := by decide
/-- V-SCALE row 11. -/
theorem test_scale_high_bits : results (exec (.scale 1) (args 0xFFFF8000 0x12340001 0xABCD0000)) =
    some [0, 0xFFDD0000, 0x46, 0, 70] := by decide
/-- V-DRDYTMO rows 1, 2, 8 and 11. -/
theorem test_drdytmo : results (exec (.drdytmo 0) State.reset) = some [0, 0, 1, 0, 0] ∧
    results (exec (.drdytmo 1) State.reset) = some [0, 100, 26, 0, 0] ∧
    results (exec (.drdytmo 7) State.reset) = some [0, 2, 1, 0, 0] ∧
    results (exec (.drdytmo 10) State.reset) = some [0, 1, 1, 0, 0] := by decide
/-- V-STCFG rows 2 and 3. -/
theorem test_stcfg : results (exec (.stcfg 1) State.reset) = some [0, 1, 3, 20, 80] ∧
    results (exec (.stcfg 2) State.reset) = some [0, 4, 1, 150, 700] := by decide
/-- V-ACC row 4. -/
theorem test_accclr : banks (exec (.accclr .bank0) (withBanks (bank 7 2) (bank 9 1))) = some (bank 0 0, bank 9 1) := by
  decide
/-- V-ACC rows 1 and 2. -/
theorem test_accadd : results (exec (.accadd .bank0) (args 0xFFF6 0x14 0)) = some [0, 0xFFFFFFF6, 0x14, 0, 1] ∧
    banks (exec (.accadd .bank0) { args 0x7FFF 0x8000 0xFFFF with bank0 := ⟨0xFFFFFFF6, 0x14, 0, 1⟩ }) =
      some (⟨0x00007FF5, 0xFFFF8014, 0xFFFFFFFF, 2⟩, AccBank.empty) := by decide
/-- V-ACC row 6. -/
theorem test_accadd_full : results (exec (.accadd .bank0) { withBanks (bank 0xFF808000 255) (bank 0 0) with res0 := 0x1234 }) =
    some [0x61, 0x1234, 0, 0, 0] := by decide
/-- V-STCMP rows 5 and 15. -/
theorem test_stcmp_pass : results (exec (.stcmp 0) (withBanks (bank 0 5) (bank 100 5))) = some [0, 0xF, 500, 500, 500] ∧
    results (exec (.stcmp 0) (withBanks (bank 30 3) (bank 200 5))) = some [0, 0xF, 450, 450, 450] := by decide
/-- V-STCMP rows 9, 11, 13 and 17. -/
theorem test_stcmp_edges :
    results (exec (.stcmp 1) (withBanks ⟨100, 0xFFFFFFCE, 7, 1⟩ ⟨60, 0xFFFFFF92, 0xFFFFFFB7, 1⟩)) =
      some [0, 0xF, 40, 60, 80] ∧
    results (exec (.stcmp 3) (withBanks (bank 0 1) ⟨150, 700, 701, 1⟩)) = some [0, 6, 150, 700, 701] ∧
    results (exec (.stcmp 0) (withBanks (bank 0 5) ⟨404, 400, 404, 5⟩)) = some [0, 4, 2020, 2000, 2020] ∧
    results (exec (.stcmp 0) { State.reset with res0 := 0x55 }) = some [0x71, 0x55, 0, 0, 0] := by decide
/-- V-STCMP row 16: the largest difference. -/
theorem test_stcmp_largest : results (exec (.stcmp 2) (withBanks (bank 0xFF808000 255) (bank 0x007F7F01 255))) =
    some [0, 0, 4261413375, 4261413375, 4261413375] := by decide

/-- 00_scope.md R9, R10: a block with other parameters. Fields at 7, [6:5] and [3:0], rate 10 coded 0: full scale 2 is (0, 1),
and bit 4 of 0xFF is kept. -/
theorem test_other_block_control2 :
    results (exec (c2set 2 10) { args 0xFF 0 0 with params := otherParams }) = some [0, 0x30, 0, 0, 0] ∧
    results (exec .c2dec { args 0x30 0 0 with params := otherParams }) = some [0, 0x520, 0, 0, 0] := by decide
/-- The same block: self-test at [7:6], rounding at 0 with `RND_ON` 0, `ST_RSV` 3, GDA at 7, its own codes and timeouts. -/
theorem test_other_block_rest :
    results (exec (.c5enc 2 true true true) { args 0xFF 0 0 with params := otherParams }) = some [0, 0xBE, 0, 0, 0] ∧
    results (execute 0x33 { State.reset with params := otherParams }) = some [0x51, 0, 0, 0, 0] ∧
    results (exec .stadec { args 0x80 0 0 with params := otherParams }) = some [0, 1, 0, 0, 0] ∧
    results (exec (.drdytmo 1) { State.reset with params := otherParams }) = some [0, 90, 23, 0, 0] ∧
    results (exec (.stcfg 1) { State.reset with params := otherParams }) = some [0, 1, 0, 20, 80] := by decide
/-- 43_drdy_timeout.md R222: the printed table is the derivation of R220 for the rates of 00_scope.md R13. -/
theorem test_derived_timeouts : rateTenthsHz.map derivedTimeoutMs = [0, 100, 48, 24, 12, 6, 3, 2, 1, 1, 1] := by decide
/-- W4 and V-STCMP row 5: an average of the document's 5 samples. -/
theorem test_selftest_samples : results (exec (.stcmp 0)
    (withBanks (bank 0 (BitVec.ofNat 32 selfTestSamples)) (bank 100 (BitVec.ofNat 32 selfTestSamples)))) =
    some [0, 0xF, 500, 500, 500] := by decide
/-- W7: the burst bytes E8 03 18 FC FF 7F. -/
theorem test_host_samples : hostSample 0xE8 0x03 = 0x03E8 ∧ hostSample 0x18 0xFC = 0xFC18 ∧
    hostSample 0xFF 0x7F = 0x7FFF := by decide

/-! ## The host port (V-BUS), reset (V-RESET), and the step -/

theorem test_bus_write_arg : (match busWrite 0x08 4 0xDEADBEEF State.reset with
    | .next t => busRead 0x08 4 t | .fault _ => none | .refused _ => none) = some 0xDEADBEEF := by rfl
theorem test_bus_read_only : busWrite 0x14 4 0x12345678 State.reset = .next State.reset ∧
    busWrite 0x04 4 0xFFFFFFFF State.reset = .next State.reset ∧
    busWrite 0x30 4 5 State.reset = .next State.reset := ⟨rfl, rfl, rfl⟩
theorem test_bus_unmapped : busRead 0x44 4 State.reset = some 0 ∧ busRead 0xFC 4 State.reset = some 0 ∧
    busWrite 0x80 4 1 State.reset = .next State.reset := ⟨rfl, rfl, rfl⟩
theorem test_bus_error : busRead 0x02 4 State.reset = none ∧ busRead 0x00 2 State.reset = none ∧
    busWrite 0x01 4 0xC State.reset = .fault .busError := ⟨rfl, rfl, rfl⟩
theorem test_reset_event : hostEvent (.resetInput true) { withBanks (bank 7 2) (bank 9 1) with cmd := 5, stat := 0x31 } =
    .next { State.reset with inReset := true } := by rfl
/-- V-RESET row 2. -/
theorem test_reset_banks_empty : results (exec (.stcmp 0) State.reset) = some [0x71, 0, 0, 0, 0] := by decide
theorem test_step_read : step { running [.read 0x0C 4] with arg1 := 9 } = .next { State.reset with arg1 := 9, trace := [9] } := by
  rfl
theorem test_withFetchWord : step (State.reset.withFetchWord 32 0x00000016) =
    exec (.scale 1) { State.reset with cmd := 0x16 } := by rfl
theorem test_decodeTableWord : decodeTableWord 32 0x00001A21 = some (.c2enc 2 4 true true) ∧
    decodeTableWord 32 0x0000000C = none ∧ decodeTableWord 8 0x19 = some (.accclr .bank1) ∧
    decodeTableWord 32 0x100000000 = none := by decide
/-- Log 19: 70_reset_and_hazards.md R342 says that CMD, STAT and RES cannot be all zero again without a reset, but by its own
rules R31, R130 and R250 ACCCLR and then NOP, whose word is 0, leave exactly that. -/
theorem test_accclr_then_nop : (match busWrite 0x00 4 0x9 { State.reset with res0 := 5, stat := 0x31 } with
    | .next t => results (busWrite 0x00 4 0x0 t) | .fault _ => none | .refused _ => none) = some [0, 0, 0, 0, 0] := by decide

/-! ## The assembler (30_encoding.md R108, R109, R110) -/

theorem test_assemble_any_order : assemble "C2ENC" [("uodr", "1"), ("fs", "500"), ("odr", "104")] =
    some (.c2enc 2 4 false true) := by decide
theorem test_assemble_omitted : assemble "ACCADD" [] = some (.accadd .bank0) ∧
    assemble "C5ENC" [("st", "neg")] = some (.c5enc 3 false false false) := by decide
theorem test_assemble_refuses : assemble "SCALE" [("fs", "300")] = none ∧ assemble "NOP" [("fs", "125")] = none ∧
    assemble "ST" [] = none ∧ assemble "SCALE" [("fs", "125"), ("fs", "250")] = none := by decide
theorem test_assemble_pseudo : (assemble "C2SET" [("fs", "500"), ("odr", "104")]).map encode = some 0x00001A21 ∧
    (assemble "C5SETRND" [("rnd", "1")]).map encode = some 0x00000183 ∧
    (assemble "C2SETODR" [("odr", "off")]).map encode = some 0x00001001 := by decide
theorem test_host_line : hostLineEvent (.wr (.reg .arg0) 1) = .write 0x08 4 1 ∧
    hostLineEvent (.rd (.addr 0x14)) = .read 0x14 4 ∧ hostLineEvent (.cmd .c2dec) = .write 0x00 4 2 := by decide

/-! ## Witnesses: states and operands that meet the hypotheses of each statement -/

theorem test_witness_ResetLeavesTheHost :
    step { withBanks (bank 7 2) (bank 9 1) with
      stat := 0x31, params := otherParams, program := [.resetInput true, .read 0x04 4], trace := [5] } =
    .next { State.reset with params := otherParams, program := [.read 0x04 4], trace := [5], inReset := true } := by rfl
theorem test_witness_AccessDuringResetHasNoStep :
    step { running [.read 0x04 4] with inReset := true } = .fault .accessDuringReset ∧
    step { running [.write 0x00 4 0] with inReset := true } = .fault .accessDuringReset ∧
    step { running [.resetInput false] with inReset := true } = .next State.reset := ⟨rfl, rfl, rfl⟩
theorem test_witness_NopOnlyClearsStat : opField 0x10 = 0 ∧ (0x10 : Word) ≠ 0 ∧ opField 0x80000000 = 0 ∧
    (0x80000000 : Word) ≠ 0 := by decide
theorem test_witness_C2encReplacesOnlyEnabledFields : { State.reset with params := otherParams }.params.layout.wf = true ∧
    (4 : BitVec 3) ≤ 4 ∧ (10 : BitVec 4) ≤ 10 ∧ defaultLayout.c2Unrelated 0 = true ∧
    (opField 0x51 = 1 ∧ (0x51 : Word) >>> 13 = 0 ∧ 4 < fselField 0x51) ∧
    (opField 0x5C1 = 1 ∧ (0x5C1 : Word) >>> 13 = 0 ∧ fselField 0x5C1 ≤ 4 ∧ 10 < odrselField 0x5C1) ∧
    opField 0x2001 = 1 ∧ (0x2001 : Word) >>> 13 ≠ 0 := by decide
theorem test_witness_C2decReturnsTheFieldSet : State.reset.params.codes.wf = true ∧
    getField 0x06 defaultParams.layout.c2Fs125 1 = 1 ∧ getField 0x0C defaultParams.layout.c2Fs125 1 = 0 ∧
    odrWire defaultParams 10 = getField 0xA8 defaultParams.layout.c2Odr 4 ∧
    (∀ k : BitVec 4, k ≤ 10 → odrWire defaultParams k ≠ getField 0xB0 defaultParams.layout.c2Odr 4) ∧
    opField 0x12 = 2 ∧ (0x12 : Word) ≠ 2 := by decide
theorem test_witness_C5encReplacesOnlyEnabledFields : (args 0xFF 0 0).params.layout.wf = true ∧
    (3 : BitVec 2) ≠ (args 0xFF 0 0).params.codes.stRsv ∧ (args 0xFF 0 0).params.layout.c5Unrelated 7 = true ∧
    (opField 0x23 = 3 ∧ (0x23 : Word) >>> 9 = 0 ∧ stselField 0x23 = State.reset.params.codes.stRsv) ∧
    opField 0x203 = 3 ∧ (0x203 : Word) >>> 9 ≠ 0 := by decide
theorem test_witness_C5decReturnsTheFieldSet : opField 0x14 = 4 ∧ (0x14 : Word) ≠ 4 := by decide
theorem test_witness_StadecReturnsDataReady : State.reset.params.layout.wf = true ∧
    opField 0x105 = 5 ∧ (0x105 : Word) ≠ 5 := by decide
theorem test_witness_ScaleMultipliesEachLane : (4 : BitVec 3) ≤ 4 ∧
    (opField 0x56 = 6 ∧ (0x56 : Word) >>> 7 = 0 ∧ 4 < fselField 0x56) ∧ opField 0x86 = 6 ∧ (0x86 : Word) >>> 7 ≠ 0 := by decide
theorem test_witness_DrdytmoReturnsTimeoutAndDelay : State.reset.params.wf = true ∧ (10 : BitVec 4) ≤ 10 ∧
    State.reset.params.tmo[(10 : BitVec 4).toNat]? = some 1 ∧
    (opField 0x587 = 7 ∧ (0x587 : Word) &&& 0xFFFFF870 = 0 ∧ 10 < odrselField 0x587) ∧
    opField 0x17 = 7 ∧ (0x17 : Word) &&& 0xFFFFF870 ≠ 0 ∧ (0x807 : Word) &&& 0xFFFFF870 ≠ 0 := by decide
theorem test_witness_StcfgReturnsTheModeTable : opField 0x48 = 8 ∧ (0x48 : Word) >>> 6 ≠ 0 := by decide
theorem test_witness_AccclrEmptiesOneBank : opField 0x29 = 9 ∧ (0x29 : Word) >>> 5 ≠ 0 := by decide
theorem test_witness_AccaddAddsOneSample : (bankOf (withBanks (bank 0 254) (bank 0 255)) .bank0).cnt ≠ 255 ∧
    (bankOf (withBanks (bank 0 254) (bank 0 255)) .bank1).cnt = 255 ∧ opField 0x2A = 10 ∧ (0x2A : Word) >>> 5 ≠ 0 := by decide
theorem test_witness_StcmpComparesTheBanks :
    1 = (withBanks (bank 0 1) (bank 80 255)).bank0.cnt.toNat ∧ 255 = (withBanks (bank 0 1) (bank 80 255)).bank1.cnt.toNat ∧
    80 = ((bank 80 255).x.toInt * (1 : Nat) - (bank 0 1).x.toInt * (255 : Nat)).natAbs ∧ State.reset.bank1.cnt = 0 ∧
    opField 0x4B = 11 ∧ (0x4B : Word) >>> 6 ≠ 0 := by decide
/-- One word for each branch, with OP as R104 reads it. -/
theorem test_witness_ExecuteChecksInOrder : 12 = (0xFFFFFFFC : Word).toNat % 16 ∧
    11 = (0x4B : Word).toNat % 16 ∧ (0x4B : Word) &&& 0xFFFFFFF0 &&& ~~~(0x30 : Word) ≠ 0 ∧
    6 = (0x56 : Word).toNat % 16 ∧ 4 < (0x56 : Word).toNat / 16 % 8 ∧
    1 = (0x581 : Word).toNat % 16 ∧ 10 < (0x581 : Word).toNat / 128 % 16 ∧
    3 = (0x23 : Word).toNat % 16 ∧ (0x23 : Word).toNat / 16 % 4 = defaultParams.codes.stRsv.toNat ∧
    7 = (0x507 : Word).toNat % 16 ∧ ¬10 < (0x507 : Word).toNat / 128 % 16 := by decide
theorem test_witness_ReservedOpcodesAreRsvop : opField 0xC = 0xC ∧ opField 0xFFFFFFFE = 0xE := by decide
theorem test_witness_StatDescribesTheLastCommand : decode defaultCodes 0xC = .error .rsvop ∧
    decode defaultCodes 0x1A = .ok (.accadd .bank1) ∧
    (bankOf (withBanks (bank 0 254) (bank 0 255)) .bank1).cnt = 255 ∧ decode defaultCodes 0xB = .ok (.stcmp 0) ∧
    State.reset.bank0.cnt = 0 ∧ (0x01 : Addr).toNat % 4 ≠ 0 := ⟨rfl, rfl, rfl, rfl, rfl, by decide⟩
theorem test_witness_FailedCommandChangesOnlyStat : busWrite 0x00 4 0x76 State.reset =
    .next { State.reset with cmd := 0x76, stat := 0x31 } ∧ (0x31 : Word) ≠ 0 := ⟨rfl, by decide⟩
theorem test_witness_LegalCommandWritesAllResults : Instr.stadec ≠ .nop ∧ Instr.stadec.opcode = 5 ∧
    (∃ t, exec .stadec (args 2 0 0) = .next t ∧ t.stat = 0) ∧ ∃ t, exec (.drdytmo 10) State.reset = .next t ∧ t.stat = 0 :=
  ⟨by decide, rfl, ⟨_, rfl, rfl⟩, ⟨_, rfl, rfl⟩⟩
theorem test_witness_CommandWritesOnlyItsRegisters : bankWritten (.accadd .bank1) ≠ some .bank0 ∧
    bankWritten (.stcmp 0) ≠ some .bank1 := by decide
/-- A failing word, NOP, and the two commands that write a bank, at the addresses next to those they write. -/
theorem test_witness_CommandKeepsOtherAddresses :
    (∃ t, busWrite 0x00 4 0xF { State.reset with res0 := 7 } = .next t ∧ t.stat ≠ 0 ∧ busRead 0x14 4 t = some 7) ∧
    decode State.reset.params.codes 0 = .ok .nop ∧ decode State.reset.params.codes 0x9 = .ok (.accclr .bank0) ∧
    bankWritten (.accclr .bank0) = some .bank0 ∧ ¬(0x24 ≤ (0x34 : Addr) ∧ (0x34 : Addr) ≤ 0x30) ∧
    ¬(0x14 ≤ (0x10 : Addr) ∧ (0x10 : Addr) ≤ 0x20) ∧ ¬(0x14 ≤ (0x24 : Addr) ∧ (0x24 : Addr) ≤ 0x20) ∧
    decode State.reset.params.codes 0x1A = .ok (.accadd .bank1) ∧ ¬(0x34 ≤ (0x30 : Addr) ∧ (0x30 : Addr) ≤ 0x40) :=
  ⟨⟨_, rfl, by decide, rfl⟩, rfl, rfl, rfl, by decide, by decide, by decide, rfl, by decide⟩
theorem test_witness_IllegalFieldsFailDirectly : fieldError State.reset.params.codes (.c2enc 5 11 false false) = some .badfs ∧
    fieldError State.reset.params.codes (.c2enc 4 11 false false) = some .badodr ∧
    fieldError State.reset.params.codes (.c5enc 2 false false false) = some .badst := by decide
theorem test_witness_CommandReadsOnlyItsOperands : (args 0xFFFFFF45 1 2).params = (args 0x45 3 4).params ∧
    readsAgree (args 0xFFFFFF45 1 2) (args 0x45 3 4) .c2dec ∧ readsAgree (args 0xFFFF8000 1 2) (args 0x8000 1 2) (.scale 4) ∧
    readsAgree (args 0xFFFF0001 1 2) (args 1 1 2) (.accadd .bank1) ∧ readsAgree (args 9 9 9) State.reset (.stcmp 0) ∧
    (∃ t, exec .c2dec (args 0x45 3 4) = .next t ∧ t.stat = 0) ∧ bankWritten (.accadd .bank1) = some .bank1 := by
  refine ⟨rfl, ?_, ?_, ?_, ?_, ⟨_, rfl, rfl⟩, rfl⟩ <;> unfold readsAgree <;> decide
theorem test_witness_BusAccessFollowsTheMap : (0x40 : Addr).toNat % 4 = 0 ∧ (0x40 : Addr).toNat ≤ 0x40 ∧
    0x40 < (0x44 : Addr).toNat ∧ (0x44 : Addr).toNat % 4 = 0 ∧ (0xFC : Addr).toNat % 4 = 0 ∧ (0xFF : Addr).toNat % 4 ≠ 0 := by
  decide
theorem test_witness_IllegalAccessIsBusError : (0x03 : Addr).toNat % 4 ≠ 0 ∧ (running [.read 0x03 4]).inReset = false ∧
    step (running [.read 0x03 4]) = .fault .busError ∧ step (running [.write 0x00 1 0]) = .fault .busError :=
  ⟨by decide, rfl, rfl, rfl⟩
theorem test_witness_ReadsAndRepeatedWritesAreIdempotent : (0x40 : Addr).toNat % 4 = 0 ∧
    (∀ b, decode defaultCodes 0x9 ≠ .ok (.accadd b)) ∧ ∃ t, busWrite 0x00 4 0x9 (withBanks (bank 7 2) (bank 9 1)) = .next t :=
  ⟨by decide, fun b h => (by cases b <;> cases h), ⟨_, rfl⟩⟩
theorem test_witness_CmdHoldsTheLastWord : (0x10 : Addr) ≠ 0x00 ∧ (∃ t, busWrite 0x10 4 7 State.reset = .next t) ∧
    (∃ t, hostRead 0x40 4 State.reset = .next t) ∧ ∃ t, exec .nop { State.reset with cmd := 5 } = .next t :=
  ⟨by decide, ⟨_, rfl⟩, ⟨_, rfl⟩, ⟨_, rfl⟩⟩
theorem test_witness_StepKeepsTheInvariant :
    Inv { withBanks (bank 0xFF810000 254) (bank 0 0) with arg0 := 0x8000, program := [.write 0x00 4 0xA] } ∧
    ∃ t, step { withBanks (bank 0xFF810000 254) (bank 0 0) with arg0 := 0x8000, program := [.write 0x00 4 0xA] } = .next t :=
  ⟨by decide, ⟨_, rfl⟩⟩
theorem test_witness_StepKeepsTheParameters :
    ∃ t, step { running [.resetInput true] with params := otherParams } = .next t ∧ t.params = otherParams := ⟨_, rfl, rfl⟩
theorem test_witness_StepKeepsTheSampleHistory :
    HistoryHolds { withBanks ⟨0xFFFF8000, 0x7FFF, 0, 1⟩ (bank 0 0) with program := [.write 0x00 4 0xA] }
      { bank0 := [⟨-32768, 32767, 0⟩], bank1 := [] } ∧
    ∃ t, step { withBanks ⟨0xFFFF8000, 0x7FFF, 0, 1⟩ (bank 0 0) with program := [.write 0x00 4 0xA] } = .next t := by
  refine ⟨?_, ⟨_, rfl⟩⟩
  unfold HistoryHolds BankHolds
  decide
theorem test_witness_DecodeInvertsEncode : WellFormed defaultCodes (.c2enc 4 10 true true) = true ∧
    WellFormed defaultCodes (.c5enc 3 true true true) = true := by decide
theorem test_witness_EncodeInvertsDecode : decode defaultCodes 0x00001D41 = .ok (.c2enc 4 10 true true) := by rfl
theorem test_witness_OpcodeMapSelectsOneRow : (∃ r ∈ opcodeMap, r.selects 0x00001FF1 = true) ∧
    decode defaultCodes 0x3B = .ok (.stcmp 3) ∧ (∀ r ∈ opcodeMap, r.selects 0xC = false) ∧
    ∀ r ∈ opcodeMap, r.selects 0x10 = false :=
  ⟨by decide, rfl, by decide, by decide⟩
theorem test_witness_StepRunsTheDecodedCommand : (running [.write 0x00 4 0x46]).inReset = false ∧
    decode defaultCodes 0x46 = .ok (.scale 4) ∧ decode defaultCodes 0x86 = .error .rsvbits ∧
    decode defaultCodes (BitVec.ofNat 32 0x46) = .ok (.scale 4) :=
  ⟨rfl, rfl, rfl, rfl⟩
theorem test_witness_StepRecordsReadsAndIdles : (running [.read 0x40 4]).inReset = false ∧ (0x40 : Addr).toNat % 4 = 0 ∧
    State.reset.program = [] := by decide
theorem test_witness_TableStatements : (1 : BitVec 3) ≤ 4 ∧ (0 : BitVec 3) ≤ 4 ∧ (1 : BitVec 4) ≤ 10 ∧
    (10 : BitVec 4) ≤ 10 ∧ (2 : BitVec 2).getLsbD 1 = true ∧ (1 : BitVec 2).getLsbD 1 = false := by decide
/-- The laws' parameters need not be the default ones. -/
theorem test_witness_Control2RoundTrip : otherParams.wf = true ∧ (4 : BitVec 3) ≤ 4 ∧ (10 : BitVec 4) ≤ 10 ∧
    otherParams.layout.c2Unrelated 4 = true := by decide
theorem test_witness_Control2DecodeThenEncode : defaultParams.wf = true ∧ (decodeControl2 defaultParams 0xAC).noncanon = false ∧
    (decodeControl2 defaultParams 0xAC).odrrsv = false ∧ (decodeControl2 defaultParams 0x06).noncanon = true := by decide
theorem test_witness_Control5RoundTrip : otherParams.wf = true ∧ (0 : BitVec 2) = otherParams.codes.stNeg ∧
    (1 : BitVec 2) = otherParams.codes.stNone ∧ (2 : BitVec 2) = otherParams.codes.stPos := by decide
theorem test_witness_Control5ResultReencodes : (args 0x4C 0 0).params.codes.wf = true ∧
    ∃ t, exec .c5dec (args 0x4C 0 0) = .next t ∧ t.res0.getLsbD 16 = false := ⟨by decide, _, rfl, by decide⟩
theorem test_witness_ScaleResultIsExact : (4 : BitVec 3) ≤ 4 ∧ sensMicroDps[(4 : BitVec 3).toNat]? = some 70000 := by decide
theorem test_witness_ScalerLaws : (3 : BitVec 3) ≤ 3 ∧ (-32768 : Int) < -32767 ∧ (-32768 : Int) ≤ -32768 + 32767 := by decide
theorem test_witness_AccumulatorNeverWraps : BankWf (bank 0xFF810000 254) ∧ (bank 0xFF810000 254).cnt ≠ 255 := by decide
theorem test_witness_Verdict : (withBanks (bank 0 5) (bank 100 5)).bank0.cnt ≠ 0 ∧
    (withBanks (bank 0 5) (bank 100 5)).bank1.cnt ≠ 0 := by decide
theorem test_witness_DifferencesFitTheirRegisters : BankWf (bank 0xFF808000 255) ∧ BankWf (bank 0x007F7F01 255) ∧
    (bank 0xFF808000 255).cnt ≠ 0 := by decide
/-- Each alternative of the hypothesis, in s = (0, 100) over five samples each: swapped, negated, shifted by 2. -/
theorem test_witness_ComparatorLaws : (withBanks (bank 0 5) (bank 100 5)).bank0.cnt ≠ 0 ∧
    (withBanks (bank 0 5) (bank 100 5)).bank1.cnt ≠ 0 ∧
    ((withBanks (bank 100 5) (bank 0 5)).bank0 = (withBanks (bank 0 5) (bank 100 5)).bank1 ∧
      (withBanks (bank 100 5) (bank 0 5)).bank1 = (withBanks (bank 0 5) (bank 100 5)).bank0) ∧
    (∀ b, (bankOf (withBanks (bank 0 5) (bank 0xFFFFFF9C 5)) b).x.toInt =
      -(bankOf (withBanks (bank 0 5) (bank 100 5)) b).x.toInt) ∧
    (∀ b, (bankOf (withBanks (bank 10 5) (bank 110 5)) b).x.toInt =
      (bankOf (withBanks (bank 0 5) (bank 100 5)) b).x.toInt +
        2 * ((bankOf (withBanks (bank 0 5) (bank 100 5)) b).cnt.toNat : Int)) ∧
    (withBanks (bank 0 1) (bank 80 1)).bank1.cnt = 1 :=
  ⟨by decide, by decide, by decide, fun b => (by cases b <;> decide), fun b => (by cases b <;> decide), by decide⟩
theorem test_witness_AssembledCommandsAreLegal : assemble "C2ENC" [("fs", "2000"), ("odr", "6664"), ("ufs", "1")] =
    some (.c2enc 4 10 true false) := by decide
theorem test_witness_OperandTokensFollowTheList : fsToken "125" = some 0 ∧ odrToken "12.5" = some 1 ∧
    odrToken "13" = none ∧ modeToken "2000n" = some 3 ∧ bankToken "2" = none := by decide
/-- Operands in another order, an omitted one, an unknown mnemonic, an operand given twice. -/
theorem test_witness_LinesAssembleToTheirCommands :
    ([("odr", "6664"), ("fs", "2000")].map Prod.fst : List String).Nodup ∧
    ([("odr", "6664"), ("fs", "2000")] : List (String × String)).Perm [("fs", "2000"), ("odr", "6664")] ∧
    OnlyOperands [("odr", "6664"), ("fs", "2000")] ["fs", "odr", "ufs", "uodr"] ∧
    OperandIs [("odr", "6664"), ("fs", "2000")] "fs" 0 fsToken 4 ∧ OperandIs [("odr", "6664")] "fs" 0 fsToken 0 ∧
    "ADD" ∉ ["NOP", "C2ENC", "C2DEC", "C5ENC", "C5DEC", "STADEC", "SCALE", "DRDYTMO", "STCFG", "ACCCLR", "ACCADD", "STCMP",
      "C2SET", "C2SETFS", "C2SETODR", "C5SETST", "C5SETRND"] ∧ assemble "ADD" [] = none ∧
    ¬([("fs", "125"), ("fs", "125")].map Prod.fst : List String).Nodup :=
  ⟨by decide, List.Perm.swap _ _ _, by unfold OnlyOperands; decide, .inr ⟨"2000", by decide, by decide⟩,
    .inl (by decide), by decide, by decide, by decide⟩
theorem test_witness_PseudoCommandsExpand : fsToken "2000" = some 4 ∧ odrToken "6664" = some 10 ∧ stToken "neg" = some 3 ∧
    bitToken "1" = some true := by decide

end Sys2Proof.Tests
end

section
/-! What a command can leave (20_memory.md R78), and the parameters along a step (00_scope.md R9, log 9). -/

namespace Sys2Proof.Machine

/-! ## How a command that goes on ends -/

/-- The states in which command `i`, run on `s`, can end: its error, NOP's commit, the results of a command that leaves the
banks alone, or the results of one that writes a bank (20_memory.md R78; 30_encoding.md R104 to R106). -/
inductive CommandEnd (i : Instr) (s : State) : State → Prop where
  | failed (e : CmdError) : CommandEnd i s (raiseError e s)
  | committed (hi : i = .nop) : CommandEnd i s (complete s)
  | results (hi : i ≠ .nop) (r0 r1 r2 r3 : Word) : CommandEnd i s (finish r0 r1 r2 r3 s)
  | bankResults (b : Bank) (hb : bankWritten i = some b) (r : AccBank) (r0 r1 r2 r3 : Word) :
      CommandEnd i s (finish r0 r1 r2 r3 (setBank b r s))

/-- A checked command has one of its ends when its legal end is one. -/
theorem commandEnd_of_checked {i : Instr} {e : Option CmdError} {s u t : State} (hu : CommandEnd i s u)
    (h : checked e s u = .next t) : CommandEnd i s t := by
  obtain ⟨_, rfl⟩ | ⟨c, _, rfl⟩ := checked_eq_next h
  · exact hu
  · exact .failed c

/-- Every command's next state is one of its ends. -/
theorem exec_eq_next {i : Instr} {s t : State} (h : exec i s = .next t) : CommandEnd i s t := by
  cases i with
  | nop => cases h; exact .committed rfl
  | c2enc fsel odrsel ufs uodr => exact commandEnd_of_checked (.results (by nofun) _ _ _ _) h
  | c2dec => cases h; exact .results (by nofun) _ _ _ _
  | c5enc stsel ust rnd urnd => exact commandEnd_of_checked (.results (by nofun) _ _ _ _) h
  | c5dec => cases h; exact .results (by nofun) _ _ _ _
  | stadec => cases h; exact .results (by nofun) _ _ _ _
  | scale fsel => exact commandEnd_of_checked (.results (by nofun) _ _ _ _) h
  | drdytmo odrsel => exact commandEnd_of_checked (.results (by nofun) _ _ _ _) h
  | stcfg mode => cases h; exact .results (by nofun) _ _ _ _
  | accclr b => cases h; exact .bankResults b rfl _ _ _ _ _
  | accadd b => exact commandEnd_of_checked (.bankResults b rfl _ _ _ _ _) h
  | stcmp mode => exact commandEnd_of_checked (.results (by nofun) _ _ _ _) h

/-! ## The parameters -/

/-- The defaults are well formed (00_scope.md R9, R10; 43_drdy_timeout.md R222). -/
theorem defaultParams_wf : defaultParams.wf = true := by decide

/-- No command changes the block's parameters. -/
theorem exec_params {i : Instr} {s t : State} (h : exec i s = .next t) : t.params = s.params := by
  cases exec_eq_next h with
  | failed e => exact raiseError_params s e
  | committed => exact complete_params s
  | results => simp
  | bankResults => simp

/-- Running a command word, legal or not, does not change the block's parameters. -/
theorem execute_params {v : Word} {s t : State} (h : execute v s = .next t) : t.params = s.params := by
  obtain ⟨e, _, he⟩ | ⟨i, _, hi⟩ := execute_cases v s
  · cases he.symm.trans h
    exact raiseError_params s e
  · exact exec_params (hi.symm.trans h)

/-- A write to any address does not change the block's parameters. -/
theorem busWrite_params {a : Addr} {n : Nat} {v : Word} {s t : State} (h : busWrite a n v s = .next t) :
    t.params = s.params := by
  obtain ⟨_, ⟨_, hx⟩ | ⟨_, rfl⟩ | ⟨_, rfl⟩ | ⟨_, rfl⟩ | rfl⟩ := busWrite_eq_next h
  · exact (execute_params hx).trans rfl
  all_goals rfl

/-- A host read does not change the block's parameters. -/
theorem hostRead_params {a : Addr} {n : Nat} {s t : State} (h : hostRead a n s = .next t) : t.params = s.params := by
  obtain ⟨_, rfl⟩ := hostRead_eq_next h
  rfl

/-- No step changes the block's parameters (00_scope.md R9, log 9). -/
theorem step_params {s t : State} (h : step s = .next t) : t.params = s.params := by
  obtain ⟨_, rfl⟩ | ⟨a, n, rest, _, _, hr⟩ | ⟨a, n, v, rest, _, _, hw⟩ | ⟨l, rest, _, rfl⟩ := step_eq_next h
  · rfl
  · exact (hostRead_params hr).trans rfl
  · exact (busWrite_params hw).trans rfl
  · exact (applyReset_params _ l).trans rfl

/-- Settles O31: reset holds the defaults, and every kind of host event keeps the record. -/
theorem stepKeepsTheParameters : Obligations.StepKeepsTheParameters :=
  ⟨defaultParams_wf, fun _ _ => step_params⟩

end Sys2Proof.Machine
end

section
/-! The registers along a step: CMD (10_state.md R31), STAT and the banks (R32, R35, R41), and the samples the banks hold
(R36). -/

namespace Sys2Proof.Machine

/-! ## Commands and writes -/

/-- No command writes CMD or moves the reset input (10_state.md R31; 20_memory.md R78). -/
theorem exec_keeps_cmd_and_inReset {i : Instr} {s t : State} (h : exec i s = .next t) :
    t.cmd = s.cmd ∧ t.inReset = s.inReset := by
  cases exec_eq_next h with
  | failed => exact ⟨rfl, rfl⟩
  | committed => exact ⟨rfl, rfl⟩
  | results => exact ⟨rfl, rfl⟩
  | bankResults => simp

/-- Running a command word, legal or not, answers a next state (30_encoding.md R104). -/
theorem execute_goes_on (v : Word) (s : State) : ∃ t, execute v s = .next t := by
  obtain ⟨e, _, he⟩ | ⟨i, _, hi⟩ := execute_cases v s
  · exact ⟨_, he⟩
  · rw [hi]
    obtain ⟨t, ht, _⟩ | ⟨e, he, _⟩ := exec_ends i s
    · exact ⟨t, ht⟩
    · exact ⟨_, he⟩

/-- Where running a command word ends: in the decoder's error, or where the decoded command ends. -/
theorem execute_eq_next {v : Word} {s t : State} (h : execute v s = .next t) :
    (∃ e, decode s.params.codes v = .error e ∧ t = raiseError e s) ∨
    ∃ i, decode s.params.codes v = .ok i ∧ exec i s = .next t := by
  obtain ⟨e, hd, he⟩ | ⟨i, hd, hi⟩ := execute_cases v s
  · cases he.symm.trans h
    exact .inl ⟨e, hd, rfl⟩
  · exact .inr ⟨i, hd, hi.symm.trans h⟩

/-- No command word, legal or not, writes CMD or moves the reset input when it runs. -/
theorem execute_keeps_cmd_and_inReset {v : Word} {s t : State} (h : execute v s = .next t) :
    t.cmd = s.cmd ∧ t.inReset = s.inReset := by
  obtain ⟨e, _, rfl⟩ | ⟨i, _, hi⟩ := execute_eq_next h
  · exact ⟨rfl, rfl⟩
  · exact exec_keeps_cmd_and_inReset hi

/-- A write that goes on runs a command word, or stores into the ARG registers at most (20_memory.md R63, R65, R66). -/
theorem busWrite_runs_or_stores {a : Addr} {n : Nat} {v : Word} {s t : State} (h : busWrite a n v s = .next t) :
    (a = 0x00 ∧ n = 4 ∧ execute v { s with cmd := v } = .next t) ∨
    (a ≠ 0x00 ∧ ∃ x y z, t = { s with arg0 := x, arg1 := y, arg2 := z }) := by
  obtain ⟨hlegal, hends⟩ := busWrite_eq_next h
  have hn : n = 4 := by
    simp only [legalAccess, Bool.and_eq_true, beq_iff_eq] at hlegal
    exact hlegal.1
  subst hn
  by_cases ha : a = 0x00
  · subst ha
    exact .inl ⟨rfl, rfl, (busWrite_cmd v s).symm.trans h⟩
  · refine .inr ⟨ha, ?_⟩
    obtain ⟨ha', _⟩ | ⟨_, rfl⟩ | ⟨_, rfl⟩ | ⟨_, rfl⟩ | rfl := hends
    · exact absurd ha' ha
    all_goals exact ⟨_, _, _, rfl⟩

/-! ## CMD -/

/-- A write of CMD leaves the word that was written in it. -/
theorem cmd_of_execute_written {v : Word} {s t : State} (h : execute v { s with cmd := v } = .next t) : t.cmd = v :=
  (execute_keeps_cmd_and_inReset h).1

/-- A write to another address leaves CMD as it was. -/
theorem busWrite_cmd_of_ne {a : Addr} {n : Nat} {v : Word} {s t : State} (ha : a ≠ 0x00)
    (h : busWrite a n v s = .next t) : t.cmd = s.cmd := by
  obtain ⟨ha', _, _⟩ | ⟨_, x, y, z, rfl⟩ := busWrite_runs_or_stores h
  · exact absurd ha' ha
  · rfl

/-- A host read leaves CMD as it was. -/
theorem hostRead_cmd {a : Addr} {n : Nat} {s t : State} (h : hostRead a n s = .next t) : t.cmd = s.cmd := by
  obtain ⟨_, rfl⟩ := hostRead_eq_next h
  rfl

/-- A read at CMD's address returns CMD. -/
theorem busRead_cmd (s : State) : busRead 0x00 4 s = some s.cmd := busRead_regAddr .cmd s

/-- Settles O28: only the write of CMD itself stores into CMD, and the command it runs keeps the word. -/
theorem cmdHoldsTheLastWord : Obligations.CmdHoldsTheLastWord := by
  refine ⟨fun v s => ?_, busRead_cmd _, fun _ _ _ _ _ => busWrite_cmd_of_ne, fun _ _ _ _ => hostRead_cmd,
    fun _ _ _ h => (exec_keeps_cmd_and_inReset h).1⟩
  obtain ⟨t, ht⟩ := execute_goes_on v { s with cmd := v }
  exact ⟨t, (busWrite_cmd v s).trans ht, ht, (busRead_cmd t).trans (congrArg some (cmd_of_execute_written ht))⟩

/-! ## STAT -/

/-- The STAT of a legal command, and of reset, is well formed. -/
theorem statWf_zero : StatWf 0 := by decide

/-- Every command leaves a well-formed STAT, whatever STAT was (60_exceptions.md R303). -/
theorem exec_statWf {i : Instr} {s t : State} (h : exec i s = .next t) : StatWf t.stat := by
  cases exec_eq_next h with
  | failed e => exact statWf_statError e
  | committed => exact statWf_zero
  | results => exact statWf_zero
  | bankResults => exact statWf_zero

/-- Every command word, legal or not, leaves a well-formed STAT. -/
theorem execute_statWf {v : Word} {s t : State} (h : execute v s = .next t) : StatWf t.stat := by
  obtain ⟨e, _, rfl⟩ | ⟨i, _, hi⟩ := execute_eq_next h
  · exact statWf_statError e
  · exact exec_statWf hi

/-! ## The ranges of the banks -/

/-- What holds of a bank and of the other one holds of every bank. -/
theorem forall_bank_of_other {P : Bank → Prop} {b : Bank} (hb : P b) (hother : P b.other) (b' : Bank) : P b' := by
  cases b <;> cases b' <;> assumption

@[simp] theorem accumulate_x (r : AccBank) (s : State) : (accumulate r s).x = addSample r.x s.arg0 := rfl
@[simp] theorem accumulate_y (r : AccBank) (s : State) : (accumulate r s).y = addSample r.y s.arg1 := rfl
@[simp] theorem accumulate_z (r : AccBank) (s : State) : (accumulate r s).z = addSample r.z s.arg2 := rfl
@[simp] theorem accumulate_cnt (r : AccBank) (s : State) : (accumulate r s).cnt = r.cnt + 1 := rfl

/-- The empty bank is in range. -/
theorem bankWf_empty : BankWf AccBank.empty := by decide

/-- A sum of fewer than 255 samples with one more added is a sum of one more sample. -/
theorem sumWf_addSample {sum cnt : Word} (arg : Word) (hcnt : cnt.toNat < 255)
    (hsucc : (cnt + 1).toNat = cnt.toNat + 1) (hsum : SumWf sum cnt) : SumWf (addSample sum arg) (cnt + 1) := by
  have hadd := sext32_addSample arg hcnt hsum
  have harg := rawSample_bounds arg
  obtain ⟨hlo, hhi⟩ := hsum
  constructor <;> rw [hadd, hsucc] <;> push_cast <;> omega

/-- A bank in range that is not full stays in range when a sample is added (44_selftest_compare.md R255). -/
theorem bankWf_accumulate {r : AccBank} (s : State) (hr : BankWf r) (hfull : r.cnt ≠ 255) :
    BankWf (accumulate r s) := by
  obtain ⟨hcnt, hx, hy, hz⟩ := hr
  obtain ⟨hsucc, hlt⟩ := cnt_succ hcnt hfull
  exact ⟨hsucc.trans_le hlt, sumWf_addSample _ hlt hsucc hx, sumWf_addSample _ hlt hsucc hy,
    sumWf_addSample _ hlt hsucc hz⟩

/-- Every command keeps both banks in range. -/
theorem exec_bankWf {i : Instr} {s t : State} (h : exec i s = .next t) (hs : ∀ b, BankWf (bankOf s b)) :
    ∀ b, BankWf (bankOf t b) := by
  obtain ⟨h0, h1, _, _⟩ | ⟨b, _, hb, hother⟩ | ⟨b, _, hfull, hb, hother⟩ := exec_banks h
  · exact forall_bank_of_other (b := .bank0) ((congrArg BankWf h0).mpr (hs .bank0))
      ((congrArg BankWf h1).mpr (hs .bank1))
  · exact forall_bank_of_other (hb ▸ bankWf_empty) (hother ▸ hs b.other)
  · exact forall_bank_of_other (hb ▸ bankWf_accumulate s (hs b) hfull) (hother ▸ hs b.other)

/-- Every command word, legal or not, keeps both banks in range. -/
theorem execute_bankWf {v : Word} {s t : State} (h : execute v s = .next t) (hs : ∀ b, BankWf (bankOf s b)) :
    ∀ b, BankWf (bankOf t b) := by
  obtain ⟨e, _, rfl⟩ | ⟨i, _, hi⟩ := execute_eq_next h
  · exact hs
  · exact exec_bankWf hi hs

/-! ## The invariant -/

/-- Outside reset the invariant asks only for STAT and the banks. -/
theorem inv_of_released {s : State} (hreset : s.inReset = false) (hstat : StatWf s.stat)
    (hbanks : ∀ b, BankWf (bankOf s b)) : Inv s :=
  ⟨hstat, hbanks .bank0, hbanks .bank1, fun h => absurd (hreset.symm.trans h) (by decide)⟩

/-- A write outside reset keeps the invariant. -/
theorem busWrite_inv {a : Addr} {n : Nat} {v : Word} {s t : State} (h : busWrite a n v s = .next t)
    (hreset : s.inReset = false) (hs : Inv s) : Inv t := by
  obtain ⟨hstat, hbank0, hbank1, _⟩ := hs
  have hbanks : ∀ b, BankWf (bankOf s b) := forall_bank_of_other (b := .bank0) hbank0 hbank1
  obtain ⟨_, _, hx⟩ | ⟨_, x, y, z, rfl⟩ := busWrite_runs_or_stores h
  · exact inv_of_released ((execute_keeps_cmd_and_inReset hx).2.trans hreset) (execute_statWf hx)
      (execute_bankWf hx hbanks)
  · exact inv_of_released hreset hstat hbanks

/-- A host read keeps the invariant, because it leaves every register alone. -/
theorem hostRead_inv {a : Addr} {n : Nat} {s t : State} (h : hostRead a n s = .next t) (hs : Inv s) : Inv t := by
  obtain ⟨_, rfl⟩ := hostRead_eq_next h
  exact hs

/-- Asserting reset establishes the register part of the invariant, and releasing it keeps the rest. -/
theorem applyReset_inv (asserted : Bool) {s : State} (hs : Inv s) : Inv (applyReset asserted s) := by
  cases asserted with
  | true => exact ⟨statWf_zero, bankWf_empty, bankWf_empty, fun _ => by simp [RegistersZero]⟩
  | false =>
    obtain ⟨hstat, hbank0, hbank1, _⟩ := hs
    exact ⟨hstat, hbank0, hbank1, nofun⟩

/-- Settles O29. -/
theorem invariantHoldsAtReset : Obligations.InvariantHoldsAtReset :=
  ⟨statWf_zero, bankWf_empty, bankWf_empty, nofun⟩

/-- Settles O30: every kind of host event keeps the invariant. -/
theorem stepKeepsTheInvariant : Obligations.StepKeepsTheInvariant := by
  intro s t hs h
  obtain ⟨_, rfl⟩ | ⟨a, n, rest, _, _, hr⟩ | ⟨a, n, v, rest, _, hreset, hw⟩ | ⟨l, rest, _, rfl⟩ := step_eq_next h
  · exact hs
  · exact hostRead_inv hr hs
  · exact busWrite_inv hw hreset hs
  · exact applyReset_inv l hs

/-! ## The samples of one bank (10_state.md R36) -/

/-- The sum of signed 16-bit numbers lies in the range of a sum of that many samples. -/
theorem sum_bounds {l : List Int} (h : ∀ x ∈ l, -32768 ≤ x ∧ x ≤ 32767) :
    -32768 * (l.length : Int) ≤ l.sum ∧ l.sum ≤ 32767 * (l.length : Int) := by
  have hlo := List.card_nsmul_le_sum l (-32768) fun x hx => (h x hx).1
  have hhi := List.sum_le_card_nsmul l 32767 fun x hx => (h x hx).2
  rw [nsmul_eq_mul] at hlo hhi
  omega

/-- A register that holds the sum of one coordinate of the samples is in range for their count. -/
theorem sumWf_of_samples {sum cnt : Word} {l : List Sample} {f : Sample → Int} (hsum : sext32 sum = (l.map f).sum)
    (hcnt : cnt.toNat = l.length) (hf : ∀ q ∈ l, -32768 ≤ f q ∧ f q ≤ 32767) : SumWf sum cnt := by
  have hbounds := sum_bounds (l := l.map f) (by simpa using hf)
  rw [List.length_map] at hbounds
  rwa [SumWf, hsum, hcnt]

/-- A bank that holds a list of samples is in range. -/
theorem bankWf_of_bankHolds {r : AccBank} {l : List Sample} (h : BankHolds r l) : BankWf r := by
  obtain ⟨hx, hy, hz, hcnt, hlen, hq⟩ := h
  exact ⟨hcnt.trans_le hlen, sumWf_of_samples hx hcnt fun q hm => (hq q hm).1,
    sumWf_of_samples hy hcnt fun q hm => (hq q hm).2.1, sumWf_of_samples hz hcnt fun q hm => (hq q hm).2.2⟩

/-- The empty bank holds no sample. -/
theorem bankHolds_empty : BankHolds AccBank.empty [] := by
  unfold BankHolds
  decide

/-- A bank is full exactly when it holds 255 samples. -/
theorem cnt_eq_full_iff {r : AccBank} {l : List Sample} (h : BankHolds r l) : r.cnt = 255 ↔ l.length = 255 := by
  obtain ⟨_, _, _, hcnt, _, _⟩ := h
  rw [← hcnt]
  exact BitVec.toNat_inj.symm

/-- Adding the sample of ARG0 to ARG2 to a bank that is not full appends it to the samples the bank holds. -/
theorem bankHolds_accumulate {r : AccBank} {l : List Sample} (s : State) (h : BankHolds r l) (hfull : r.cnt ≠ 255) :
    BankHolds (accumulate r s) (l ++ [sampleOf s]) := by
  obtain ⟨hcntWf, hxWf, hyWf, hzWf⟩ := bankWf_of_bankHolds h
  obtain ⟨hsucc, hlt⟩ := cnt_succ hcntWf hfull
  obtain ⟨hx, hy, hz, hcnt, hlen, hq⟩ := h
  refine ⟨?_, ?_, ?_, ?_, ?_, ?_⟩
  · simpa [sampleOf, ← hx] using sext32_addSample s.arg0 hlt hxWf
  · simpa [sampleOf, ← hy] using sext32_addSample s.arg1 hlt hyWf
  · simpa [sampleOf, ← hz] using sext32_addSample s.arg2 hlt hzWf
  · rw [accumulate_cnt, hsucc, hcnt, List.length_append, List.length_singleton]
  · simp
    omega
  · intro q hm
    obtain hm | rfl := by simpa using hm
    · exact hq q hm
    · exact ⟨rawSample_bounds _, rawSample_bounds _, rawSample_bounds _⟩

/-! ## The history -/

@[simp] theorem samples_withSamples (h : History) (b : Bank) (l : List Sample) :
    (h.withSamples b l).samples b = l := by cases b <;> rfl

@[simp] theorem samples_withSamples_other (h : History) (b : Bank) (l : List Sample) :
    (h.withSamples b l).samples b.other = h.samples b.other := by cases b <;> rfl

/-- The history holds when each bank holds its samples. -/
theorem historyHolds_iff (s : State) (h : History) : HistoryHolds s h ↔ ∀ b, BankHolds (bankOf s b) (h.samples b) :=
  ⟨fun ⟨h0, h1⟩ => forall_bank_of_other (b := .bank0) h0 h1, fun hb => ⟨hb .bank0, hb .bank1⟩⟩

/-- Replacing one bank and its samples together keeps the history. -/
theorem historyHolds_withSamples {s t : State} {h : History} {b : Bank} {l : List Sample} (hs : HistoryHolds s h)
    (hb : BankHolds (bankOf t b) l) (hother : bankOf t b.other = bankOf s b.other) :
    HistoryHolds t (h.withSamples b l) := by
  rw [historyHolds_iff] at hs ⊢
  refine forall_bank_of_other (b := b) ?_ ?_
  · rwa [samples_withSamples]
  · rw [samples_withSamples_other, hother]
    exact hs b.other

/-- A command other than ACCCLR, and other than ACCADD on a bank with room, leaves the history as it was. -/
theorem historyCommand_eq_self (s : State) {h : History} {i : Instr} (hclr : ∀ b, i ≠ .accclr b)
    (hadd : ∀ b, i = .accadd b → ¬(h.samples b).length < 255) : historyCommand s h i = h := by
  cases i with
  | accclr b => exact absurd rfl (hclr b)
  | accadd b => exact if_neg (hadd b rfl)
  | _ => rfl

/-- Every command moves the banks and the history together (44_selftest_compare.md R250, R254). -/
theorem exec_history {i : Instr} {s t : State} {h : History} (hx : exec i s = .next t) (hs : HistoryHolds s h) :
    HistoryHolds t (historyCommand s h i) := by
  have hbanks := (historyHolds_iff s h).1 hs
  obtain ⟨h0, h1, hclr, hadd⟩ | ⟨b, rfl, hb, hother⟩ | ⟨b, rfl, hfull, hb, hother⟩ := exec_banks hx
  case inl =>
    have hkeep : historyCommand s h i = h :=
      historyCommand_eq_self s hclr fun b hi => ((cnt_eq_full_iff (hbanks b)).1 (hadd b hi)).not_lt
    rw [hkeep, HistoryHolds, h0, h1]
    exact hs
  case inr.inl => exact historyHolds_withSamples hs (hb ▸ bankHolds_empty) hother
  case inr.inr =>
    have hroom : (h.samples b).length < 255 := by
      have hlen := (bankWf_of_bankHolds (hbanks b)).1
      have hne := mt (cnt_eq_full_iff (hbanks b)).2 hfull
      obtain ⟨_, _, _, hcnt, _, _⟩ := hbanks b
      omega
    rw [historyCommand, if_pos hroom]
    exact historyHolds_withSamples hs (hb ▸ bankHolds_accumulate s (hbanks b) hfull) hother

/-! ## The history along a step -/

section

variable {s t : State} {h : History}

/-- The write of a legal command word moves the history as its command says. -/
theorem historyStep_of_legal {v : Word} {rest : List HostEvent} {i : Instr} (hp : s.program = .write 0x00 4 v :: rest)
    (hd : decode s.params.codes v = .ok i) : historyStep s h = historyCommand s h i := by
  simp [historyStep, hp, hd]

/-- The write of a word that is no legal command keeps the history. -/
theorem historyStep_of_illegal {v : Word} {rest : List HostEvent} {e : CmdError}
    (hp : s.program = .write 0x00 4 v :: rest) (hd : decode s.params.codes v = .error e) : historyStep s h = h := by
  simp [historyStep, hp, hd]

/-- A write to another address keeps the history. -/
theorem historyStep_of_write_elsewhere {a : Addr} {n : Nat} {v : Word} {rest : List HostEvent}
    (hp : s.program = .write a n v :: rest) (ha : a ≠ 0x00) : historyStep s h = h := by
  rw [historyStep, hp]
  exact if_neg fun hcmd => ha hcmd.1

/-- A read keeps the history. -/
theorem historyStep_of_read {a : Addr} {n : Nat} {rest : List HostEvent} (hp : s.program = .read a n :: rest) :
    historyStep s h = h := by
  rw [historyStep, hp]

/-- Without an event the history stays. -/
theorem historyStep_of_idle (hp : s.program = []) : historyStep s h = h := by
  rw [historyStep, hp]

/-- Asserting reset drops every sample, and releasing it keeps them. -/
theorem historyStep_of_resetInput {asserted : Bool} {rest : List HostEvent}
    (hp : s.program = .resetInput asserted :: rest) :
    historyStep s h = if asserted then History.empty else h := by
  rw [historyStep, hp]

/-- The write of a command word, legal or not, moves the banks and the history together. -/
theorem execute_historyStep {v : Word} {rest : List HostEvent} (hp : s.program = .write 0x00 4 v :: rest)
    (hx : execute v { s with program := rest, cmd := v } = .next t) (hs : HistoryHolds s h) :
    HistoryHolds t (historyStep s h) := by
  obtain ⟨e, hd, rfl⟩ | ⟨i, hd, hi⟩ := execute_eq_next hx
  · rw [historyStep_of_illegal hp hd]
    exact hs
  · rw [historyStep_of_legal hp hd]
    exact exec_history (s := { s with program := rest, cmd := v }) hi hs

end

/-- Empty banks hold the empty history. -/
theorem historyHolds_empty (h0 : s.bank0 = AccBank.empty) (h1 : s.bank1 = AccBank.empty) :
    HistoryHolds s History.empty :=
  ⟨h0 ▸ bankHolds_empty, h1 ▸ bankHolds_empty⟩

/-- Settles O32. -/
theorem historyHoldsAtReset : Obligations.HistoryHoldsAtReset := historyHolds_empty rfl rfl

/-- Settles O33: a command word moves the banks and the history together, asserting reset empties both, and every other
event leaves both alone. -/
theorem stepKeepsTheSampleHistory : Obligations.StepKeepsTheSampleHistory := by
  intro s t h hs hstep
  obtain ⟨hp, rfl⟩ | ⟨a, n, rest, hp, _, hr⟩ | ⟨a, n, v, rest, hp, _, hw⟩ | ⟨l, rest, hp, rfl⟩ := step_eq_next hstep
  · rwa [historyStep_of_idle hp]
  · obtain ⟨_, rfl⟩ := hostRead_eq_next hr
    rw [historyStep_of_read hp]
    exact hs
  · obtain ⟨rfl, rfl, hx⟩ | ⟨ha, x, y, z, rfl⟩ := busWrite_runs_or_stores hw
    · exact execute_historyStep hp hx hs
    · rw [historyStep_of_write_elsewhere hp ha]
      exact hs
  · rw [historyStep_of_resetInput hp]
    cases l with
    | true => exact historyHolds_empty rfl rfl
    | false => exact hs

end Sys2Proof.Machine
end

section
/-! The host port (20_memory.md): which accesses are legal, what the map answers at each address, and the steps that access
it. -/

namespace Sys2Proof.Machine

/-! ## The map (R61 to R66) -/

/-- The legal accesses are the aligned ones of four bytes (R62). -/
theorem legalAccess_iff (a : Addr) (n : Nat) : legalAccess a n = true ↔ n = 4 ∧ a.toNat % 4 = 0 := by
  simp [legalAccess, ← BitVec.toNat_inj]

/-- An access that is misaligned or not of four bytes is not legal. -/
theorem legalAccess_eq_false {a : Addr} {n : Nat} (h : n ≠ 4 ∨ a.toNat % 4 ≠ 0) : legalAccess a n = false := by
  rw [← Bool.not_eq_true, legalAccess_iff]
  omega

/-- A legal read returns the word at its address. -/
theorem busRead_legal {a : Addr} {n : Nat} (h : legalAccess a n = true) (s : State) :
    busRead a n s = some (wordAt s a) := if_pos h

/-- The registers stand one after another from address 0, four bytes each. -/
theorem regAddr_allRegs_toNat : ∀ k (hk : k < allRegs.length), (regAddr allRegs[k]).toNat = 4 * k := by decide

/-- The register at an aligned address of the map is the one whose place in the list is the address divided by four. -/
theorem exists_reg_of_aligned {a : Addr} (hal : a.toNat % 4 = 0) (hle : a.toNat ≤ 0x40) :
    ∃ r, allRegs[a.toNat / 4]? = some r ∧ regAddr r = a := by
  have hk : a.toNat / 4 < allRegs.length := by
    change a.toNat / 4 < 17
    omega
  refine ⟨_, List.getElem?_eq_getElem hk, BitVec.eq_of_toNat_eq ?_⟩
  rw [regAddr_allRegs_toNat]
  omega

/-- The map ends at CNT1. -/
theorem regAddr_toNat_le (r : Reg) : (regAddr r).toNat ≤ 0x40 := by cases r <;> decide

/-- Nothing is mapped above CNT1. -/
theorem regAt_eq_none {a : Addr} (h : 0x40 < a.toNat) : regAt a = none := by
  cases hr : regAt a with
  | none => rfl
  | some r =>
    have hle := regAddr_toNat_le r
    rw [regAddr_of_regAt hr] at hle
    omega

/-- A register other than CMD and the ARG registers ignores a write (R66). -/
theorem writeReg_readOnly {r : Reg} (hcmd : r ≠ .cmd) (h0 : r ≠ .arg0) (h1 : r ≠ .arg1) (h2 : r ≠ .arg2) (v : Word)
    (s : State) : writeReg r v s = .next s := by
  obtain ⟨hr, _⟩ | ⟨hr, _⟩ | ⟨hr, _⟩ | ⟨hr, _⟩ | h := writeReg_cases r v s
  · exact absurd hr hcmd
  · exact absurd hr h0
  · exact absurd hr h1
  · exact absurd hr h2
  · exact h

/-- A legal write to an address with no register has no effect (R65). -/
theorem busWrite_unmapped {a : Addr} {n : Nat} (hl : legalAccess a n = true) (hr : regAt a = none) (v : Word)
    (s : State) : busWrite a n v s = .next s := by
  simp [busWrite, hl, hr]

/-- A legal write to an address other than those of CMD and the ARG registers has no effect (R65, R66). -/
theorem busWrite_elsewhere {a : Addr} {n : Nat} (hl : legalAccess a n = true) (hcmd : a ≠ 0x00) (h0 : a ≠ 0x08)
    (h1 : a ≠ 0x0C) (h2 : a ≠ 0x10) (v : Word) (s : State) : busWrite a n v s = .next s := by
  cases hr : regAt a with
  | none => exact busWrite_unmapped hl hr v s
  | some r =>
    obtain ⟨rfl, _⟩ := (legalAccess_iff a n).1 hl
    obtain rfl := regAddr_of_regAt hr
    rw [busWrite_regAddr]
    exact writeReg_readOnly (ne_of_apply_ne regAddr hcmd) (ne_of_apply_ne regAddr h0) (ne_of_apply_ne regAddr h1)
      (ne_of_apply_ne regAddr h2) v s

/-- Settles O25: an address is not aligned, or of a register of the map, or above the map. -/
theorem busAccessFollowsTheMap : Obligations.BusAccessFollowsTheMap := by
  refine ⟨fun a n v s h => ?_, fun a s hal hle => ?_, fun a s hal hgt => ?_, fun a v s hal => ?_⟩
  · have hl := legalAccess_eq_false h
    exact ⟨busRead_illegal hl s, busWrite_illegal hl v s⟩
  · obtain ⟨r, hr, rfl⟩ := exists_reg_of_aligned hal hle
    exact ⟨r, hr, busRead_regAddr r s⟩
  · rw [busRead_legal ((legalAccess_iff a 4).2 ⟨rfl, hal⟩), wordAt, regAt_eq_none hgt]
  · split_ifs with hcmd h0 h1 h2
    · exact hcmd ▸ busWrite_cmd v s
    · exact h0 ▸ busWrite_regAddr .arg0 v s
    · exact h1 ▸ busWrite_regAddr .arg1 v s
    · exact h2 ▸ busWrite_regAddr .arg2 v s
    · exact busWrite_elsewhere ((legalAccess_iff a 4).2 ⟨rfl, hal⟩) hcmd h0 h1 h2 v s

/-! ## Steps that access the port -/

/-- Outside reset a step with a read next is that read, with the event taken off the program. -/
theorem step_read {s : State} {a : Addr} {n : Nat} {rest : List HostEvent} (hr : s.inReset = false)
    (hp : s.program = .read a n :: rest) : step s = hostRead a n { s with program := rest } := by
  simp [step, hp, hostEvent, hr]

/-- Outside reset a step with a write next is that write, with the event taken off the program. -/
theorem step_write {s : State} {a : Addr} {n : Nat} {v : Word} {rest : List HostEvent} (hr : s.inReset = false)
    (hp : s.program = .write a n v :: rest) : step s = busWrite a n v { s with program := rest } := by
  simp [step, hp, hostEvent, hr]

/-- An illegal host read is a bus error (R64). -/
theorem hostRead_illegal {a : Addr} {n : Nat} (h : legalAccess a n = false) (s : State) :
    hostRead a n s = .fault .busError := by
  rw [hostRead, busRead_illegal h]

/-- A legal host read records the word at its address and changes nothing else (R63, R67). -/
theorem hostRead_legal {a : Addr} {n : Nat} (h : legalAccess a n = true) (s : State) :
    hostRead a n s = .next { s with trace := s.trace ++ [wordAt s a] } := by
  rw [hostRead, busRead_legal h]

/-- Settles O26. -/
theorem illegalAccessIsBusError : Obligations.IllegalAccessIsBusError := by
  intro s a n rest h hr
  have hl := legalAccess_eq_false h.symm
  exact ⟨fun hp => (step_read hr hp).trans (hostRead_illegal hl _),
    fun v hp => (step_write hr hp).trans (busWrite_illegal hl v _)⟩

/-- A word that decodes to a command runs its rule (30_encoding.md R104). -/
theorem execute_of_ok {v : Word} {s : State} {i : Instr} (h : decode s.params.codes v = .ok i) :
    execute v s = exec i s := by
  rw [execute, h]

/-- A word that decodes to none fails with the decoder's error (30_encoding.md R104). -/
theorem execute_of_error {v : Word} {s : State} {e : CmdError} (h : decode s.params.codes v = .error e) :
    execute v s = .next (raiseError e s) := by
  rw [execute, h]

/-- Outside reset a step with a write of CMD next stores the word and runs it (R72). -/
theorem step_write_cmd {s : State} {v : Word} {rest : List HostEvent} (hr : s.inReset = false)
    (hp : s.program = .write 0x00 4 v :: rest) : step s = execute v { s with program := rest, cmd := v } :=
  (step_write hr hp).trans (busWrite_cmd v _)

/-- Settles O38: the step runs the written word, and withFetchWord makes the write next. -/
theorem stepRunsTheDecodedCommand : Obligations.StepRunsTheDecodedCommand := by
  refine ⟨fun s v rest i hr hp hd => ?_, fun s v rest e hr hp hd => ?_, fun s w i hd => ?_⟩
  · exact (step_write_cmd hr hp).trans (execute_of_ok hd)
  · exact (step_write_cmd hr hp).trans (execute_of_error hd)
  · exact (step_write_cmd (s := s.withFetchWord 32 w) rfl rfl).trans (execute_of_ok hd)

end Sys2Proof.Machine
end

section
/-! What a command leaves unchanged (20_memory.md R78), register by register and as the host port shows it, and what repeating
an access does (R67). -/

namespace Sys2Proof.Machine

/-! ## The frame of a command -/

/-- Every command answers a next state. -/
theorem exec_goes_on (i : Instr) (s : State) : ∃ t, exec i s = .next t := by
  obtain ⟨t, ht, _⟩ | ⟨e, he, _⟩ := exec_ends i s
  · exact ⟨t, ht⟩
  · exact ⟨_, he⟩

/-- No command writes an operand register. -/
theorem exec_keeps_args {i : Instr} {s t : State} (h : exec i s = .next t) :
    t.arg0 = s.arg0 ∧ t.arg1 = s.arg1 ∧ t.arg2 = s.arg2 := by
  cases exec_eq_next h with
  | failed => exact ⟨rfl, rfl, rfl⟩
  | committed => exact ⟨rfl, rfl, rfl⟩
  | results => exact ⟨rfl, rfl, rfl⟩
  | bankResults => simp

/-- No command touches the host's program or its trace. -/
theorem exec_keeps_host {i : Instr} {s t : State} (h : exec i s = .next t) :
    t.program = s.program ∧ t.trace = s.trace := by
  cases exec_eq_next h with
  | failed => exact ⟨rfl, rfl⟩
  | committed => exact ⟨rfl, rfl⟩
  | results => exact ⟨rfl, rfl⟩
  | bankResults => simp

/-- Replacing a bank leaves every other one. -/
theorem bankOf_setBank_of_ne {b b' : Bank} (h : b' ≠ b) (r : AccBank) (s : State) :
    bankOf (setBank b r s) b' = bankOf s b' :=
  forall_bank_of_other (P := fun x => x ≠ b → bankOf (setBank b r s) x = bankOf s x) (absurd rfl)
    (fun _ => bankOf_setBank_other ..) b' h

/-- A command leaves every bank that it does not name. -/
theorem exec_keeps_bank {i : Instr} {s t : State} {b : Bank} (h : exec i s = .next t) (hb : bankWritten i ≠ some b) :
    bankOf t b = bankOf s b := by
  cases exec_eq_next h with
  | failed => exact bankOf_raiseError ..
  | committed => exact bankOf_complete ..
  | results => exact bankOf_finish ..
  | bankResults b' hb' =>
    have hne : b ≠ b' := fun hbb => hb (hbb ▸ hb')
    rw [bankOf_finish, bankOf_setBank_of_ne hne]

/-- A command that fails, and NOP, writes STAT alone (30_encoding.md R105, R106). -/
theorem exec_writes_only_stat {i : Instr} {s t : State} (h : exec i s = .next t) (hi : t.stat ≠ 0 ∨ i = .nop) :
    t = { s with stat := t.stat } := by
  cases exec_eq_next h with
  | failed => rfl
  | committed => rfl
  | results hnop => exact absurd hi (by simp [hnop])
  | bankResults b hb =>
    have hnop : i ≠ .nop := by
      rintro rfl
      cases hb
    exact absurd hi (by simp [hnop])

/-- Settles O21. -/
theorem commandWritesOnlyItsRegisters : Obligations.CommandWritesOnlyItsRegisters := by
  intro i s
  obtain ⟨t, ht⟩ := exec_goes_on i s
  obtain ⟨hcmd, hreset⟩ := exec_keeps_cmd_and_inReset ht
  obtain ⟨harg0, harg1, harg2⟩ := exec_keeps_args ht
  obtain ⟨hprogram, htrace⟩ := exec_keeps_host ht
  refine ⟨t, ht, hcmd, harg0, harg1, harg2, exec_params ht, hprogram, htrace, hreset, fun b => exec_keeps_bank ht, ?_⟩
  intro hnop
  rw [exec_writes_only_stat ht (.inr hnop)]
  exact ⟨rfl, rfl, rfl, rfl⟩

/-! ## The frame at the host port -/

/-- A read depends only on the register at its address. -/
theorem busRead_congr {a : Addr} {n : Nat} {s t : State} (h : ∀ r, regAddr r = a → readReg t r = readReg s r) :
    busRead a n t = busRead a n s := by
  have hword : wordAt t a = wordAt s a := by
    unfold wordAt
    cases hr : regAt a with
    | none => rfl
    | some r => exact h r (regAddr_of_regAt hr)
  rw [busRead, busRead, hword]

/-- Writing CMD and STAT leaves every other register. -/
theorem readReg_write_cmd_stat {r : Reg} (hcmd : r ≠ .cmd) (hstat : r ≠ .stat) (v x : Word) (s : State) :
    readReg { s with cmd := v, stat := x } r = readReg s r := by
  cases r with
  | cmd => exact absurd rfl hcmd
  | stat => exact absurd rfl hstat
  | _ => rfl

/-- A command leaves every register but STAT, the results and those of the bank it names. -/
theorem exec_keeps_reg {i : Instr} {s t : State} {r : Reg} (h : exec i s = .next t) (hstat : r ≠ .stat)
    (hres : ¬(0x14 ≤ regAddr r ∧ regAddr r ≤ 0x20))
    (h0 : bankWritten i = some .bank0 → ¬(0x24 ≤ regAddr r ∧ regAddr r ≤ 0x30))
    (h1 : bankWritten i = some .bank1 → ¬(0x34 ≤ regAddr r ∧ regAddr r ≤ 0x40)) : readReg t r = readReg s r := by
  obtain ⟨hcmd, _⟩ := exec_keeps_cmd_and_inReset h
  obtain ⟨harg0, harg1, harg2⟩ := exec_keeps_args h
  have hbank0 (hr : 0x24 ≤ regAddr r ∧ regAddr r ≤ 0x30) : t.bank0 = s.bank0 :=
    exec_keeps_bank (b := .bank0) h fun hb => h0 hb hr
  have hbank1 (hr : 0x34 ≤ regAddr r ∧ regAddr r ≤ 0x40) : t.bank1 = s.bank1 :=
    exec_keeps_bank (b := .bank1) h fun hb => h1 hb hr
  cases r with
  | cmd => exact hcmd
  | stat => exact absurd rfl hstat
  | arg0 => exact harg0
  | arg1 => exact harg1
  | arg2 => exact harg2
  | res0 | res1 | res2 | res3 => exact absurd (by decide) hres
  | acc0x => exact congrArg AccBank.x (hbank0 (by decide))
  | acc0y => exact congrArg AccBank.y (hbank0 (by decide))
  | acc0z => exact congrArg AccBank.z (hbank0 (by decide))
  | cnt0 => exact congrArg AccBank.cnt (hbank0 (by decide))
  | acc1x => exact congrArg AccBank.x (hbank1 (by decide))
  | acc1y => exact congrArg AccBank.y (hbank1 (by decide))
  | acc1z => exact congrArg AccBank.z (hbank1 (by decide))
  | cnt1 => exact congrArg AccBank.cnt (hbank1 (by decide))

/-- A command word that fails, and NOP's, writes STAT alone when it runs. -/
theorem execute_writes_only_stat {v : Word} {s t : State} (h : execute v s = .next t)
    (hv : t.stat ≠ 0 ∨ decode s.params.codes v = .ok .nop) : t = { s with stat := t.stat } := by
  obtain ⟨e, _, rfl⟩ | ⟨i, hd, hi⟩ := execute_eq_next h
  · rfl
  · exact exec_writes_only_stat hi (hv.imp_right fun hnop => Except.ok.inj (hd.symm.trans hnop))

/-- Settles O22: the register at an address other than CMD's and STAT's is one that the command leaves. -/
theorem commandKeepsOtherAddresses : Obligations.CommandKeepsOtherAddresses := by
  intro v s
  obtain ⟨t, ht⟩ := execute_goes_on v { s with cmd := v }
  refine ⟨t, (busWrite_cmd v s).trans ht, fun a hcmd hstat => ⟨fun hv => ?_, fun i hd hres h0 h1 => ?_⟩⟩
  · rw [execute_writes_only_stat ht hv]
    refine busRead_congr fun r hr => ?_
    subst hr
    exact readReg_write_cmd_stat (ne_of_apply_ne regAddr hcmd) (ne_of_apply_ne regAddr hstat) v t.stat s
  · have hi : exec i { s with cmd := v } = .next t := (execute_of_ok (s := { s with cmd := v }) hd).symm.trans ht
    refine busRead_congr fun r hr => ?_
    subst hr
    have hne : r ≠ .stat := ne_of_apply_ne regAddr hstat
    exact (exec_keeps_reg hi hne hres h0 h1).trans
      (readReg_write_cmd_stat (ne_of_apply_ne regAddr hcmd) hne v s.stat s)

/-! ## Repeating an access (R67) -/

/-- The host's trace is no part of what a read returns. -/
theorem busRead_trace (a : Addr) (n : Nat) (s : State) (l : List Word) :
    busRead a n { s with trace := l } = busRead a n s :=
  busRead_congr fun r _ => by cases r <;> rfl

/-- A checked command can be repeated when, in each state it can end in, it makes the same check again and its legal end
leads back to itself. -/
theorem exec_repeat_of_checked {i : Instr} {e : Option CmdError} {s u t : State} (h : checked e s u = .next t)
    (hend : exec i u = checked e u u) (hfail : ∀ c, ∃ w, exec i (raiseError c s) = checked e (raiseError c s) w) :
    exec i t = .next t := by
  obtain ⟨he, rfl⟩ | ⟨c, he, rfl⟩ := checked_eq_next h
  · rw [hend, he, checked_none]
  · obtain ⟨w, hw⟩ := hfail c
    rw [hw, he, checked_some]
    rfl

/-- Every command but ACCADD, which adds its sample again, can be repeated: none of the others reads what it writes. -/
theorem exec_repeat {i : Instr} {s t : State} (hadd : ∀ b, i ≠ .accadd b) (h : exec i s = .next t) :
    exec i t = .next t := by
  cases i with
  | nop => cases h; rfl
  | c2enc fsel odrsel ufs uodr => exact exec_repeat_of_checked h rfl fun _ => ⟨_, rfl⟩
  | c2dec => cases h; rfl
  | c5enc stsel ust rnd urnd => exact exec_repeat_of_checked h rfl fun _ => ⟨_, rfl⟩
  | c5dec => cases h; rfl
  | stadec => cases h; rfl
  | scale fsel => exact exec_repeat_of_checked h rfl fun _ => ⟨_, rfl⟩
  | drdytmo odrsel => exact exec_repeat_of_checked h rfl fun _ => ⟨_, rfl⟩
  | stcfg mode => cases h; rfl
  | accclr b => cases h; cases b <;> rfl
  | accadd b => exact absurd rfl (hadd b)
  | stcmp mode => exact exec_repeat_of_checked h rfl fun _ => ⟨_, rfl⟩

/-- Every command word but a legal ACCADD can be run again. -/
theorem execute_repeat {v : Word} {s t : State} (hadd : ∀ b, decode s.params.codes v ≠ .ok (.accadd b))
    (h : execute v s = .next t) : execute v t = .next t := by
  have hparams : t.params = s.params := execute_params h
  obtain ⟨e, hd, rfl⟩ | ⟨i, hd, hi⟩ := execute_eq_next h
  · exact execute_of_error hd
  · have hnot (b : Bank) : i ≠ .accadd b := by
      rintro rfl
      exact hadd b hd
    rw [execute_of_ok (hparams ▸ hd)]
    exact exec_repeat hnot hi

/-- Settles O27: a read writes the trace alone, and a command word that is no legal ACCADD can be run again. -/
theorem readsAndRepeatedWritesAreIdempotent : Obligations.ReadsAndRepeatedWritesAreIdempotent := by
  refine ⟨fun a s hal => ?_, fun v s t hadd h => ?_⟩
  · have hl : legalAccess a 4 = true := (legalAccess_iff a 4).2 ⟨rfl, hal⟩
    exact ⟨wordAt s a, hostRead_legal hl s, busRead_legal hl s, (busRead_trace ..).trans (busRead_legal hl s)⟩
  · rw [busWrite_cmd] at h ⊢
    have hcmd : { t with cmd := v } = t := by rw [← cmd_of_execute_written h]
    rw [hcmd]
    exact execute_repeat (s := { s with cmd := v }) hadd h

end Sys2Proof.Machine
end

section
/-! The encoder and the decoder invert each other (30_encoding.md R90, R91, R111). One direction reads the fields of an encoded
command; the other shows that the fields a word spells, put back in their places, are the word under its format's field
mask. -/

namespace Sys2Proof.Machine

/-! ## Decoding an encoded command -/

/-- The operand fields never touch OP and stay inside the field mask, for every command. -/
theorem operandBits_inside (i : Instr) : Laws.OpcodeField.Statement i := by
  cases i with
  | nop => exact Laws.OpcodeField.nop
  | c2enc fsel odrsel ufs uodr => exact Laws.OpcodeField.c2enc fsel odrsel ufs uodr
  | c2dec => exact Laws.OpcodeField.c2dec
  | c5enc stsel ust rnd urnd => exact Laws.OpcodeField.c5enc stsel ust rnd urnd
  | c5dec => exact Laws.OpcodeField.c5dec
  | stadec => exact Laws.OpcodeField.stadec
  | scale fsel => exact Laws.OpcodeField.scale fsel
  | drdytmo odrsel => exact Laws.OpcodeField.drdytmo odrsel
  | stcfg mode => exact Laws.OpcodeField.stcfg mode
  | accclr bank => exact Laws.OpcodeField.accclr bank
  | accadd bank => exact Laws.OpcodeField.accadd bank
  | stcmp mode => exact Laws.OpcodeField.stcmp mode

/-- The reserved-bit check passes exactly when no bit of [31:4] outside the field mask is set (R103, R104). -/
theorem reservedBitsSet_eq_false_iff (f : Format) (v : Word) :
    reservedBitsSet f v = false ↔ v &&& 0xFFFFFFF0 &&& ~~~f.fieldMask = 0 := bne_eq_false_iff_eq

/-- An encoded command sets no reserved bit (R103). -/
theorem reservedBitsSet_encode (i : Instr) : reservedBitsSet i.format (encode i) = false := by
  obtain ⟨_, hmask⟩ := operandBits_inside i
  have hop : i.opcode.setWidth 32 &&& 0xFFFFFFF0 = (0 : Word) := by
    generalize i.opcode = op
    decide +revert
  have hbits : operandBits i &&& 0xFFFFFFF0 &&& ~~~i.format.fieldMask = (0 : Word) := by
    rw [BitVec.and_assoc, BitVec.and_comm 0xFFFFFFF0, ← BitVec.and_assoc, hmask]
    rfl
  rw [reservedBitsSet_eq_false_iff, encode, BitVec.and_or_distrib_right, hop]
  simpa [BitVec.and_or_distrib_right] using hbits

/-- The fields of an encoded command spell the command: in each format, each of the few operand values is read back. -/
theorem readFields_encode (i : Instr) : readFields (encode i) = some i := by
  cases i with
  | nop | c2dec | c5dec | stadec => rfl
  | c2enc fsel odrsel ufs uodr => decide +revert
  | c5enc stsel ust rnd urnd => decide +revert
  | scale fsel => decide +revert
  | drdytmo odrsel => decide +revert
  | stcfg mode | stcmp mode => decide +revert
  | accclr bank | accadd bank => cases bank <;> rfl

/-- A well-formed command's word decodes to it. -/
theorem decode_encode {c : Codes} {i : Instr} (h : WellFormed c i = true) : decode c (encode i) = .ok i :=
  (decode_eq_ok_iff c _ i).2 ⟨readFields_encode i, reservedBitsSet_encode i, (fieldError_eq_none_iff c i).2 h⟩

/-- Settles O34. -/
theorem decodeInvertsEncode : Obligations.DecodeInvertsEncode := fun _ _ => decode_encode

/-! ## Encoding a decoded command -/

/-- A field of a word, put back in its place, is the word under the field's mask. -/
theorem extractLsb'_shift_eq_and (v : Word) (lo n : Nat) :
    (v.extractLsb' lo n).setWidth 32 <<< lo = v &&& (BitVec.allOnes n).setWidth 32 <<< lo := by
  apply BitVec.eq_of_getLsbD_eq
  intro k hk
  rw [BitVec.getLsbD_and, getLsbD_zext_shift _ _ _ hk, getLsbD_zext_shift _ _ _ hk, BitVec.getLsbD_extractLsb',
    BitVec.getLsbD_allOnes]
  by_cases hlo : lo ≤ k
  · rw [Nat.add_sub_cancel' hlo]
    cases v.getLsbD k <;> simp
  · simp [hlo]

/-- A one-bit field of a word, put back in its place, is the word under that bit. -/
theorem flagBit_shift_eq_and (v : Word) (n : Nat) : flagBit (v.getLsbD n) <<< n = v &&& BitVec.twoPow 32 n := by
  apply BitVec.eq_of_getLsbD_eq
  intro k hk
  rw [BitVec.getLsbD_and, getLsbD_flagBit_shift _ _ _ hk, BitVec.getLsbD_twoPow]
  by_cases h : n = k
  · simp [h, hk]
  · simp [h, Ne.symm h]

/-- BANK of a word, put back in its place, is the word under bit 4 (R96). -/
theorem bankBit_shift_eq_and (v : Word) : bankBit (bankField v) <<< 4 = v &&& BitVec.twoPow 32 4 := by
  rw [← flagBit_shift_eq_and, bankField]
  cases v.getLsbD 4 <;> rfl

/-- The operands a word spells, put back in their places, are the word under its format's field mask. -/
theorem operandBits_of_readFields {v : Word} {i : Instr} (h : readFields v = some i) :
    operandBits i = v &&& i.format.fieldMask := by
  unfold readFields at h
  split at h <;> cases h
  -- The commands of format N have no field, and those of the other formats one field for each part of the mask.
  case h_1 | h_3 | h_5 | h_6 => exact BitVec.and_zero.symm
  all_goals
    simp only [operandBits, fselField, odrselField, stselField, modeField, extractLsb'_shift_eq_and,
      flagBit_shift_eq_and, bankBit_shift_eq_and, ← BitVec.and_or_distrib_left]
    rfl

/-- OP of a word, as a word. -/
theorem opField_setWidth (v : Word) : (opField v).setWidth 32 = v &&& 0xF := by
  simpa [opField] using extractLsb'_shift_eq_and v 0 4

/-- A word with no bit outside a mask is its own part under the mask. -/
theorem and_eq_self_of_and_not_eq_zero {v m : Word} (h : v &&& ~~~m = 0) : v &&& m = v :=
  calc v &&& m = v &&& m ||| v &&& ~~~m := by rw [h]; exact BitVec.or_zero.symm
    _ = v := by rw [← BitVec.and_or_distrib_left, BitVec.or_not_self, BitVec.and_allOnes]

/-- Without a reserved bit, OP and the fields of a word are the whole word. -/
theorem encode_of_readFields {v : Word} {i : Instr} (h : readFields v = some i)
    (hb : reservedBitsSet i.format v = false) : encode i = v := by
  rw [reservedBitsSet_eq_false_iff, BitVec.and_assoc] at hb
  have hmask : 0xFFFFFFF0 &&& ~~~i.format.fieldMask = ~~~(0xF ||| i.format.fieldMask) := by
    rw [BitVec.not_or]
    rfl
  calc encode i = v &&& 0xF ||| v &&& i.format.fieldMask := by
        rw [encode, opcode_of_readFields h, opField_setWidth, operandBits_of_readFields h]
    _ = v &&& (0xF ||| i.format.fieldMask) := BitVec.and_or_distrib_left.symm
    _ = v := and_eq_self_of_and_not_eq_zero (hmask ▸ hb)

/-- The decoder's answer encodes to the word it was read from. -/
theorem encode_of_decode {c : Codes} {v : Word} {i : Instr} (h : decode c v = .ok i) : encode i = v := by
  obtain ⟨hread, hb, _⟩ := (decode_eq_ok_iff c v i).1 h
  exact encode_of_readFields hread hb

/-- Settles O35. -/
theorem encodeInvertsDecode : Obligations.EncodeInvertsDecode :=
  fun _ _ _ h => ⟨encode_of_decode h, wellFormed_of_decode h⟩

/-! ## Printed words (R111, R302) -/

/-- Settles O37: the words are constants, so the decoder is evaluated on them. -/
theorem printedWordsDecode : Obligations.PrintedWordsDecode := by
  unfold Obligations.PrintedWordsDecode
  decide

end Sys2Proof.Machine
end

section
/-! The opcode map (30_encoding.md R99): a row's match and mask say that OP is the row's and that its format's reserved-bit check
passes. -/

namespace Sys2Proof.Machine

/-! ## Selecting a row -/

/-- OP of a bitwise conjunction. -/
theorem opField_and (v w : Word) : opField (v &&& w) = opField v &&& opField w := BitVec.extractLsb'_and

/-- A word is a row's bare OP exactly when its OP is the row's and every other bit is 0. -/
theorem eq_setWidth_op_iff (v : Word) (op : BitVec 4) :
    v = op.setWidth 32 ↔ opField v = op ∧ v &&& 0xFFFFFFF0 = 0 := by
  constructor
  · rintro rfl
    decide +revert
  · rintro ⟨rfl, hrest⟩
    rw [opField_setWidth]
    exact (and_eq_self_of_and_not_eq_zero hrest).symm

/-- A row's mask covers OP and every bit outside its format's fields, and its match value is its OP. -/
theorem opcodeMap_masks : ∀ r ∈ opcodeMap,
    r.mask = ~~~r.format.fieldMask ∧ opField r.mask = 0xF ∧ r.pattern = r.op.setWidth 32 := by decide

/-- The rows have distinct OP values. -/
theorem opcodeMap_op_injective : ∀ r ∈ opcodeMap, ∀ r' ∈ opcodeMap, r.op = r'.op → r = r' := by decide

/-- A word selects a row exactly when its OP is the row's and it has no reserved bit of the row's format. -/
theorem selects_iff {r : OpcodeRow} (hr : r ∈ opcodeMap) (v : Word) :
    r.selects v = true ↔ opField v = r.op ∧ v &&& 0xFFFFFFF0 &&& ~~~r.format.fieldMask = 0 := by
  obtain ⟨hmask, hop, hpattern⟩ := opcodeMap_masks r hr
  have hopv : opField (v &&& r.mask) = opField v := by rw [opField_and, hop]; exact BitVec.and_allOnes
  rw [OpcodeRow.selects, beq_iff_eq, hpattern, eq_setWidth_op_iff, hopv, hmask, BitVec.and_assoc,
    BitVec.and_comm (~~~_), ← BitVec.and_assoc]

/-- Every command has its row. -/
theorem exists_row (i : Instr) : ∃ r ∈ opcodeMap, r.op = i.opcode ∧ r.format = i.format := by
  cases i <;> simp [opcodeMap, Instr.opcode, Instr.format]

/-- A word whose reserved-bit check passes in the format of the command it spells selects that command's row. -/
theorem exists_row_selected {v : Word} {i : Instr} (h : readFields v = some i)
    (hb : reservedBitsSet i.format v = false) :
    ∃ r ∈ opcodeMap, r.selects v = true ∧ r.op = i.opcode ∧ r.format = i.format := by
  obtain ⟨r, hr, hop, hformat⟩ := exists_row i
  refine ⟨r, hr, (selects_iff hr v).2 ⟨?_, ?_⟩, hop, hformat⟩
  · rw [hop, opcode_of_readFields h]
  · rwa [hformat, ← reservedBitsSet_eq_false_iff]

/-- Settles O36: a word selects the row of the command it spells, unless its OP is reserved or a reserved bit is set. -/
theorem opcodeMapSelectsOneRow : Obligations.OpcodeMapSelectsOneRow := by
  refine ⟨rfl, fun v r hr => selects_iff hr v, fun v r r' hr hr' h h' => ?_, fun c v i h => ?_, fun c v hnone => ?_⟩
  · exact opcodeMap_op_injective r hr r' hr' (((selects_iff hr v).1 h).1.symm.trans ((selects_iff hr' v).1 h').1)
  · obtain ⟨hread, hb, _⟩ := (decode_eq_ok_iff c v i).1 h
    exact exists_row_selected hread hb
  · obtain ⟨_, hd⟩ | ⟨i, hread, ⟨_, hd⟩ | ⟨hb, _⟩⟩ := decode_cases c v
    · exact .inl hd
    · exact .inr hd
    · obtain ⟨r, hr, hsel, _⟩ := exists_row_selected hread hb
      exact absurd hsel (by simp [hnone r hr])

end Sys2Proof.Machine
end

section
/-! How a command word runs (30_encoding.md R102, R104 to R107): the checks in their order, what a failing command leaves, and
what a legal one reads and writes; and the host steps that run no command (R109). -/

namespace Sys2Proof.Machine

/-! ## The checks (R102, R104) -/

/-- STAT after an error is sixteen times its code, plus one (60_exceptions.md R303). -/
theorem statError_eq_ofNat (e : CmdError) : statError e = BitVec.ofNat 32 (16 * e.code.toNat + 1) := by cases e <;> rfl

/-- A word with a reserved opcode is RSVOP (R102). -/
theorem decode_of_reserved_op {v : Word} (h : 12 ≤ (opField v).toNat) (c : Codes) : decode c v = .error .rsvop := by
  rw [decode, (readFields_eq_none_iff v).2 h]

/-- Settles O17. -/
theorem reservedOpcodesAreRsvop : Obligations.ReservedOpcodesAreRsvop := by
  intro v s h
  have hop : 12 ≤ (opField v).toNat := by obtain h | h | h | h := h <;> simp [h]
  have hd := decode_of_reserved_op hop s.params.codes
  exact ⟨hd, execute_of_error hd⟩

/-- The field mask of a command's format, by opcode (R91, R99). -/
theorem fieldMask_eq_getD (i : Instr) :
    ([0, 0x1FF0, 0, 0x1F0, 0, 0, 0x70, 0x780, 0x30, 0x10, 0x10, 0x30].getD i.opcode.toNat 0 : Word) =
      i.format.fieldMask := by
  cases i <;> rfl

/-- The field checks on the raw bits of the word that spells the command (R104, third to fifth check). -/
theorem fieldError_of_readFields {v : Word} {i : Instr} (h : readFields v = some i) (c : Codes) :
    fieldError c i =
      if (i.opcode.toNat = 1 ∨ i.opcode.toNat = 6) ∧ 4 < v.toNat / 16 % 8 then some .badfs
      else if (i.opcode.toNat = 1 ∨ i.opcode.toNat = 7) ∧ 10 < v.toNat / 128 % 16 then some .badodr
      else if i.opcode.toNat = 3 ∧ v.toNat / 16 % 4 = c.stRsv.toNat then some .badst
      else none := by
  unfold readFields at h
  split at h <;> cases h <;>
    simp [fieldError, Instr.opcode, BitVec.lt_def, ← BitVec.toNat_inj, fselField_toNat, odrselField_toNat, stselField_toNat]

/-- A command with legal fields ends with STAT 0, or ACCADD ends in ACCFULL, or STCMP in CNTZERO (R104, R302). -/
theorem exec_ends_of_legal {i : Instr} {s : State} (h : fieldError s.params.codes i = none) :
    (∃ t, exec i s = .next t ∧ t.stat = 0) ∨ (i.opcode.toNat = 10 ∧ exec i s = .next (raiseError .accfull s)) ∨
      (i.opcode.toNat = 11 ∧ exec i s = .next (raiseError .cntzero s)) := by
  obtain hlegal | ⟨e, he, hf | ⟨hop, rfl⟩ | ⟨hop, rfl⟩⟩ := exec_ends i s
  · exact .inl hlegal
  · exact absurd (h.symm.trans hf) (by simp)
  · exact .inr (.inl ⟨congrArg BitVec.toNat hop, he⟩)
  · exact .inr (.inr ⟨congrArg BitVec.toNat hop, he⟩)

/-- Settles O16: the word spells a command unless its opcode is reserved, and the checks on the raw bits are the decoder's on
that command. -/
theorem executeChecksInOrder : Obligations.ExecuteChecksInOrder := by
  intro v s op fm hop hfm
  refine ⟨busWrite_cmd v s, ?_⟩
  rw [← opField_toNat] at hop
  split_ifs with hrsvop hres hfs hodr hst
  · exact execute_of_error (decode_of_reserved_op (hop ▸ hrsvop) _)
  all_goals
    obtain ⟨i, hread⟩ : ∃ i, readFields v = some i :=
      Option.ne_none_iff_exists'.1 (mt (readFields_eq_none_iff v).1 (hop ▸ hrsvop))
    obtain rfl : i.opcode.toNat = op := by rw [hop, opcode_of_readFields hread]
    obtain rfl : fm = i.format.fieldMask := hfm.trans (fieldMask_eq_getD i)
    have hcheck := fieldError_of_readFields hread s.params.codes
  · exact execute_reserved hread (bne_iff_ne.2 hres) s
  all_goals
    have hb : reservedBitsSet i.format v = false := (reservedBitsSet_eq_false_iff ..).2 (not_not.1 hres)
  · exact execute_badField hread hb s (hcheck.trans (if_pos hfs))
  · exact execute_badField hread hb s (hcheck.trans (by rw [if_neg hfs, if_pos hodr]))
  · exact execute_badField hread hb s (hcheck.trans (by rw [if_neg hfs, if_neg hodr, if_pos hst]))
  · rw [if_neg hfs, if_neg hodr, if_neg hst] at hcheck
    exact ⟨i, rfl, encode_of_readFields hread hb, execute_of_ok ((decode_eq_ok_iff ..).2 ⟨hread, hb, hcheck⟩),
      exec_ends_of_legal hcheck⟩

/-- A command with an illegal field value ends in that field's error (log 13). -/
theorem exec_of_fieldError {i : Instr} {s : State} {e : CmdError} (h : fieldError s.params.codes i = some e) :
    exec i s = .next (raiseError e s) := by
  have hchecked (t : State) : checked (fieldError s.params.codes i) s t = .next (raiseError e s) := by
    rw [h, checked_some]
  cases i with
  | c2enc | c5enc | scale | drdytmo => exact hchecked _
  | nop | c2dec | c5dec | stadec | stcfg | accclr | accadd | stcmp => cases h

/-- The word of a command with an illegal field value decodes to that field's error (log 13). -/
theorem decode_encode_of_fieldError {c : Codes} {i : Instr} {e : CmdError} (h : fieldError c i = some e) :
    decode c (encode i) = .error e := by
  simp [decode, readFields_encode, reservedBitsSet_encode, h]

/-- Settles O23. -/
theorem illegalFieldsFailDirectly : Obligations.IllegalFieldsFailDirectly := by
  intro i s e h
  refine ⟨?_, decode_encode_of_fieldError h⟩
  rw [exec_of_fieldError h, raiseError_eq, statError_eq_ofNat]

/-! ## What a failing command leaves (R105) -/

/-- Settles O19. -/
theorem failedCommandChangesOnlyStat : Obligations.FailedCommandChangesOnlyStat := by
  intro v s t h hstat
  rw [busWrite_cmd] at h
  exact execute_writes_only_stat h (.inl hstat)

/-! ## What a legal command writes (R106) -/

/-- A checked command that leaves STAT 0 passed its check and ended in its legal end. -/
theorem checked_legal {e : Option CmdError} {s u t : State} (h : checked e s u = .next t) (hstat : t.stat = 0) :
    e = none ∧ t = u := by
  obtain hend | ⟨c, _, rfl⟩ := checked_eq_next h
  · exact hend
  · exact absurd hstat (statError_ne_zero c)

/-- A checked command whose check and legal end are the same from two states ends alike when it is legal. -/
theorem checked_legal_congr {e : Option CmdError} {s s' u t : State} (h : checked e s u = .next t) (hstat : t.stat = 0) :
    checked e s' u = .next t := by
  obtain ⟨rfl, rfl⟩ := checked_legal h hstat
  rfl

/-- A legal command other than NOP does not keep an old result. -/
theorem exec_overwrites_results {i : Instr} {s t : State} (a b c d : Word) (hi : i ≠ .nop) (h : exec i s = .next t)
    (hstat : t.stat = 0) : exec i { s with res0 := a, res1 := b, res2 := c, res3 := d } = .next t := by
  cases i with
  | nop => exact absurd rfl hi
  | c2dec | c5dec | stadec | stcfg => exact h
  | c2enc | c5enc | scale | drdytmo | stcmp => exact checked_legal_congr h hstat
  | accclr bank => cases bank <;> exact h
  | accadd bank => cases bank <;> exact checked_legal_congr h hstat

/-- Settles O20: the legal ends of the named commands write 0 to the results their rules do not define. -/
theorem legalCommandWritesAllResults : Obligations.LegalCommandWritesAllResults := by
  refine ⟨fun i s t a b c d => exec_overwrites_results a b c d, fun i s t hop h hstat => ?_, fun o s t h hstat => ?_⟩
  · cases i with
    | c2enc | c5enc =>
      obtain ⟨_, rfl⟩ := checked_legal h hstat
      exact ⟨rfl, rfl, rfl⟩
    | c2dec | c5dec | stadec =>
      cases h
      exact ⟨rfl, rfl, rfl⟩
    | nop | scale | drdytmo | stcfg | accclr | accadd | stcmp => simp [Instr.opcode] at hop
  · obtain ⟨_, rfl⟩ := checked_legal h hstat
    exact ⟨rfl, rfl⟩

/-! ## What a command reads (R107; 20_memory.md R78) -/

/-- What two runs of command `i` leave that a command's rule fixes: STAT, the results of a legal command other than NOP, and the
bank that the command writes. -/
def SameOutcome (i : Instr) (t t' : State) : Prop :=
  t.stat = t'.stat ∧
  (t.stat = 0 → i ≠ .nop → t.res0 = t'.res0 ∧ t.res1 = t'.res1 ∧ t.res2 = t'.res2 ∧ t.res3 = t'.res3) ∧
  ∀ b, bankWritten i = some b → bankOf t b = bankOf t' b

/-- A command runs alike from two states when it makes the same check and writes the same results, and the bank it writes is
the same before it and at its legal end. -/
theorem sameOutcome_of_checked {i : Instr} {s s' u u' : State} (e : Option CmdError) (r0 r1 r2 r3 : Word)
    (hs : ∀ b, bankWritten i = some b → bankOf s b = bankOf s' b)
    (hu : ∀ b, bankWritten i = some b → bankOf u b = bankOf u' b) :
    ∃ t t', checked e s (finish r0 r1 r2 r3 u) = .next t ∧ checked e s' (finish r0 r1 r2 r3 u') = .next t' ∧
      SameOutcome i t t' := by
  cases e with
  | none => exact ⟨_, _, rfl, rfl, rfl, fun _ _ => ⟨rfl, rfl, rfl, rfl⟩, by simpa using hu⟩
  | some c => exact ⟨_, _, rfl, rfl, rfl, fun h => absurd h (statError_ne_zero c), by simpa using hs⟩

/-- A command that writes no bank runs alike from two states when it makes the same check and writes the same results. -/
theorem sameOutcome_of_results {i : Instr} (hi : bankWritten i = none) (s s' : State) (e : Option CmdError)
    (r0 r1 r2 r3 : Word) :
    ∃ t t', checked e s (finish r0 r1 r2 r3 s) = .next t ∧ checked e s' (finish r0 r1 r2 r3 s') = .next t' ∧
      SameOutcome i t t' :=
  sameOutcome_of_checked e r0 r1 r2 r3 (by simp [hi]) (by simp [hi])

/-- The sample in the low halves of the operand registers is all that an accumulation reads of them. -/
theorem accumulate_congr (r : AccBank) {s s' : State} (hx : rawSample s.arg0 = rawSample s'.arg0)
    (hy : rawSample s.arg1 = rawSample s'.arg1) (hz : rawSample s.arg2 = rawSample s'.arg2) :
    accumulate r s = accumulate r s' := by
  simp [accumulate, addSample, hx, hy, hz]

/-- A command runs alike from two states of one block that agree on what it reads. -/
theorem exec_sameOutcome (i : Instr) {s s' : State} (hp : s.params = s'.params) (h : readsAgree s s' i) :
    ∃ t t', exec i s = .next t ∧ exec i s' = .next t' ∧ SameOutcome i t t' := by
  cases i with
  | nop => exact ⟨_, _, rfl, rfl, rfl, fun _ hnop => absurd rfl hnop, nofun⟩
  | c2enc | c5enc =>
    have hw : wireByte s = wireByte s' := h
    simp only [exec, execC2enc, execC5enc, hp, hw]
    exact sameOutcome_of_results rfl s s' _ _ _ _ _
  | c2dec | c5dec | stadec =>
    have hw : wireByte s = wireByte s' := h
    simp only [exec, execC2dec, execC5dec, execStadec, hp, hw]
    exact sameOutcome_of_results rfl s s' none _ _ _ _
  | scale fsel =>
    obtain ⟨hx, hy, hz⟩ := h
    simp only [exec, execScale, rawSample, hp, hx, hy, hz]
    exact sameOutcome_of_results rfl s s' _ _ _ _ _
  | drdytmo odrsel =>
    simp only [exec, execDrdytmo, hp]
    exact sameOutcome_of_results rfl s s' _ _ _ _ _
  | stcfg mode =>
    simp only [exec, execStcfg, hp]
    exact sameOutcome_of_results rfl s s' none _ _ _ _
  | accclr b =>
    refine ⟨_, _, rfl, rfl, rfl, fun _ _ => ⟨rfl, rfl, rfl, rfl⟩, fun b' hb => ?_⟩
    cases hb
    simp
  | accadd b =>
    obtain ⟨hx, hy, hz, hbank⟩ := h
    have hacc := accumulate_congr (bankOf s' b) (congrArg BitVec.toInt hx) (congrArg BitVec.toInt hy)
      (congrArg BitVec.toInt hz)
    simp only [exec, execAccadd, hbank, hacc]
    refine sameOutcome_of_checked _ _ _ _ _ (fun b' hb => ?_) (fun b' hb => ?_)
    · cases hb
      exact hbank
    · cases hb
      simp
  | stcmp mode =>
    obtain ⟨hbank0, hbank1⟩ := h
    simp only [exec, execStcmp, hbank0, hbank1]
    exact sameOutcome_of_results rfl s s' _ _ _ _ _

/-- Settles O24. -/
theorem commandReadsOnlyItsOperands : Obligations.CommandReadsOnlyItsOperands :=
  fun i _ _ => exec_sameOutcome i

/-! ## Steps that run no command (R109; 60_exceptions.md R315) -/

/-- Settles O39. -/
theorem stepRecordsReadsAndIdles : Obligations.StepRecordsReadsAndIdles := by
  refine ⟨fun s a rest hr hp hal => ?_, fun s hp => ?_⟩
  · exact (step_read hr hp).trans (hostRead_legal ((legalAccess_iff a 4).2 ⟨rfl, hal⟩) _)
  · rw [step, hp]

end Sys2Proof.Machine
end

section
/-! The assembler over lines cut into tokens (30_encoding.md R108, R110; logs 16 and 21): its tables as finite maps, the lines
it accepts, and the commands they spell. -/

namespace Sys2Proof.Machine

/-! ## Association lists -/

section
variable {α β : Type} [BEq α] [LawfulBEq α] {l : List (α × β)} {k : α} {v : β}

/-- What a lookup finds stands in the list. -/
theorem mem_of_lookup_eq_some (h : l.lookup k = some v) : (k, v) ∈ l := by
  obtain ⟨l₁, l₂, rfl, _⟩ := List.lookup_eq_some_iff.1 h
  simp

/-- What holds of every value of the list holds of what a lookup finds. -/
theorem lookup_satisfies {P : β → Prop} (hl : ∀ p ∈ l, P p.2) (h : l.lookup k = some v) : P v :=
  hl (k, v) (mem_of_lookup_eq_some h)

/-- In a list that gives no key twice, a lookup finds exactly the pairs of the list. -/
theorem lookup_eq_some_iff_mem (hl : (l.map Prod.fst).Nodup) : l.lookup k = some v ↔ (k, v) ∈ l := by
  refine ⟨mem_of_lookup_eq_some, fun h => ?_⟩
  obtain ⟨l₁, l₂, rfl⟩ := List.append_of_mem h
  rw [List.map_append, List.nodup_append] at hl
  obtain ⟨_, _, hapart⟩ := hl
  refine List.lookup_eq_some_iff.2 ⟨l₁, l₂, rfl, fun p hp => bne_iff_ne.2 ?_⟩
  exact (hapart p.1 (List.mem_map_of_mem hp) k (by simp)).symm

/-- A lookup fails exactly for a key that the list does not give. -/
theorem lookup_eq_none_iff_notMem : l.lookup k = none ↔ k ∉ l.map Prod.fst := by
  rw [List.lookup_eq_none_iff, List.mem_map]
  push Not
  simp only [bne_iff_ne, ne_comm]

/-- The order of a list that gives no key twice does not matter to a lookup. -/
theorem lookup_perm {l' : List (α × β)} (h : l.Perm l') (hl : (l.map Prod.fst).Nodup) (k : α) :
    l.lookup k = l'.lookup k := by
  have hl' : (l'.map Prod.fst).Nodup := (h.map _).nodup_iff.1 hl
  ext v
  rw [lookup_eq_some_iff_mem hl, lookup_eq_some_iff_mem hl', h.mem_iff]

end

/-! ## Operands (R108) -/

/-- Settles O56: no token list gives a token twice. -/
theorem operandTokensFollowTheList : Obligations.OperandTokensFollowTheList :=
  ⟨fun _ _ => lookup_eq_some_iff_mem (by decide), fun _ _ => lookup_eq_some_iff_mem (by decide),
    fun _ _ => lookup_eq_some_iff_mem (by decide), fun _ _ => lookup_eq_some_iff_mem (by decide),
    fun _ _ => lookup_eq_some_iff_mem (by decide), fun _ _ => lookup_eq_some_iff_mem (by decide)⟩

section
variable {ops ops' : List (String × String)} {α : Type} {name : String} {zero v : α} {token : String → Option α}

/-- On a line that gives no operand twice, the value of an operand is what the line says of it. -/
theorem operand_eq_some_iff (hops : (ops.map Prod.fst).Nodup) :
    operand ops name zero token = some v ↔ OperandIs ops name zero token v := by
  unfold operand OperandIs
  cases h : ops.lookup name with
  | none =>
    have hnot : name ∉ ops.map Prod.fst := lookup_eq_none_iff_notMem.1 h
    have hmem (t : String) : (name, t) ∉ ops := fun ht => hnot (List.mem_map_of_mem (f := Prod.fst) ht)
    simp [hnot, hmem, eq_comm]
  | some t =>
    have hmem (t' : String) : (name, t') ∈ ops ↔ t = t' := by
      rw [← lookup_eq_some_iff_mem hops, h, Option.some.injEq]
    have hgiven : name ∈ ops.map Prod.fst := List.mem_map_of_mem (f := Prod.fst) ((hmem t).2 rfl)
    simp [hgiven, hmem]

/-- What holds of 0 and of every token's value holds of an operand. -/
theorem operand_satisfies {P : α → Prop} (hzero : P zero) (htoken : ∀ t v, token t = some v → P v)
    (h : operand ops name zero token = some v) : P v := by
  unfold operand at h
  split at h
  · cases h
    exact hzero
  · exact htoken _ _ h

/-- The full scale of a line is one of the five (R92). -/
theorem fsOperand_legal {f : BitVec 3} (h : fsOperand ops = some f) : fselLegal f = true :=
  operand_satisfies (P := (fselLegal · = true)) rfl
    (fun _ _ => lookup_satisfies (P := (fselLegal · = true)) (by decide)) h

/-- The rate of a line is one of the eleven (R93). -/
theorem odrOperand_legal {o : BitVec 4} (h : odrOperand ops = some o) : odrselLegal o = true :=
  operand_satisfies (P := (odrselLegal · = true)) rfl
    (fun _ _ => lookup_satisfies (P := (odrselLegal · = true)) (by decide)) h

/-- The self-test code of a line is not the reserved one of the default codes (R94, log 9). -/
theorem stOperand_legal {st : BitVec 2} (h : stOperand ops = some st) : stselLegal defaultCodes st = true :=
  operand_satisfies (P := (stselLegal defaultCodes · = true)) rfl
    (fun _ _ => lookup_satisfies (P := (stselLegal defaultCodes · = true)) (by decide)) h

end

/-! ## Lines -/

/-- The row of a mnemonic in the tables: the names of its operands, and how its command is built. -/
abbrev IsRow (mnemonic : String) (names : List String) (build : Build) : Prop :=
  (commandTable ++ pseudoTable).lookup mnemonic = some (names, build)

section
variable {mnemonic : String} {names : List String} {build : Build} {ops ops' : List (String × String)} {i : Instr}

/-- The operand check passes when the line names only the command's operands and none twice. -/
theorem operandNames_iff : operandNames ops names = true ↔ OnlyOperands ops names ∧ (ops.map Prod.fst).Nodup := by
  simp [operandNames, OnlyOperands]

/-- What the assembler answers for a mnemonic with a row. -/
theorem assemble_of_row (hrow : IsRow mnemonic names build) :
    assemble mnemonic ops = some i ↔ OnlyOperands ops names ∧ (ops.map Prod.fst).Nodup ∧ build ops = some i := by
  rw [assemble, hrow, ← and_assoc, ← operandNames_iff]
  exact Option.ite_none_right_eq_some

/-- The assembler accepts a line only when its mnemonic has a row. -/
theorem exists_row_of_assemble (h : assemble mnemonic ops = some i) : ∃ names build, IsRow mnemonic names build := by
  unfold assemble at h
  split at h
  case h_1 => cases h
  case h_2 names build hrow => exact ⟨names, build, hrow⟩

/-- A mnemonic without a row is refused. -/
theorem assemble_of_unknown (h : mnemonic ∉ (commandTable ++ pseudoTable).map Prod.fst) :
    assemble mnemonic ops = none := by
  rw [assemble, lookup_eq_none_iff_notMem.2 h]

/-- A line that gives an operand twice is refused (log 16). -/
theorem assemble_of_repeated (h : ¬(ops.map Prod.fst).Nodup) : assemble mnemonic ops = none := by
  refine Option.eq_none_iff_forall_ne_some.2 fun i hi => h ?_
  obtain ⟨names, build, hrow⟩ := exists_row_of_assemble hi
  obtain ⟨_, hops, _⟩ := (assemble_of_row hrow).1 hi
  exact hops

/-! ## The order of the operands (R108, log 21) -/

/-- A row builds its command from what the line gives for each name, and from nothing else of the line. -/
theorem build_congr (hrow : IsRow mnemonic names build) (h : ∀ name, ops.lookup name = ops'.lookup name) :
    build ops = build ops' := by
  have hop {α : Type} : @operand α ops = @operand α ops' := by
    funext name zero token
    rw [operand, operand, h]
  have hall : ∀ row ∈ commandTable ++ pseudoTable, row.2.2 ops = row.2.2 ops' := by
    simp [commandTable, pseudoTable, fsOperand, odrOperand, stOperand, modeOperand, bankOperand, bitOperand, hop]
  exact hall _ (mem_of_lookup_eq_some hrow)

/-- A line that is accepted spells the same command with its operands in any order. -/
theorem assemble_perm_of_some (h : ops.Perm ops') (hi : assemble mnemonic ops = some i) :
    assemble mnemonic ops' = some i := by
  obtain ⟨names, build, hrow⟩ := exists_row_of_assemble hi
  obtain ⟨honly, hops, hbuild⟩ := (assemble_of_row hrow).1 hi
  refine (assemble_of_row hrow).2 ⟨fun o ho => honly o (h.mem_iff.2 ho), (h.map _).nodup_iff.1 hops, ?_⟩
  rw [← hbuild, build_congr hrow (lookup_perm h hops)]

/-! ## The shapes of the rows -/

/-- A mnemonic without operands. -/
theorem assemble_plain {j : Instr} (hrow : IsRow mnemonic [] fun _ => some j) (hops : (ops.map Prod.fst).Nodup) :
    assemble mnemonic ops = some i ↔ ops = [] ∧ i = j := by
  simp [assemble_of_row hrow, hops, OnlyOperands, List.eq_nil_iff_forall_not_mem, eq_comm]

/-- A mnemonic with one operand. -/
theorem assemble_single {α : Type} {name : String} {zero : α} {token : String → Option α} {mk : α → Instr}
    (hrow : IsRow mnemonic [name] fun ops => (operand ops name zero token).map mk) (hops : (ops.map Prod.fst).Nodup) :
    assemble mnemonic ops = some i ↔ OnlyOperands ops [name] ∧ ∃ v, OperandIs ops name zero token v ∧ i = mk v := by
  simp only [assemble_of_row hrow, hops, true_and, Option.map_eq_some_iff, operand_eq_some_iff hops, eq_comm (a := i)]

end

/-- Settles O57: each mnemonic's row has no operand, one or four, and each operand is what the line says of it. -/
theorem linesAssembleToTheirCommands : Obligations.LinesAssembleToTheirCommands := by
  refine ⟨fun ops i hops => ?_, fun m ops ops' h => ?_, fun _ _ => assemble_of_unknown, fun _ _ => assemble_of_repeated⟩
  · refine ⟨assemble_plain rfl hops, ?c2enc, assemble_plain rfl hops, ?c5enc, assemble_plain rfl hops,
      assemble_plain rfl hops, assemble_single rfl hops, assemble_single rfl hops, assemble_single rfl hops,
      assemble_single rfl hops, assemble_single rfl hops, assemble_single rfl hops⟩
    case c2enc | c5enc =>
      refine (assemble_of_row rfl).trans ?_
      simp only [hops, true_and, fsOperand, odrOperand, stOperand, bitOperand, operand_eq_some_iff hops,
        Option.bind_eq_bind, Option.bind_eq_some_iff, Option.some.injEq, exists_and_left, eq_comm (a := i)]
  · ext i
    exact ⟨assemble_perm_of_some h, assemble_perm_of_some h.symm⟩

/-! ## Legality (R108, R110) -/

/-- Whatever line a row builds its command from, the command is well formed for the default codes. -/
def LegalBuild (build : Build) : Prop := ∀ ops i, build ops = some i → WellFormed defaultCodes i = true

/-- A row with a fixed command. -/
theorem legalBuild_const {j : Instr} (hj : WellFormed defaultCodes j = true) : LegalBuild fun _ => some j := by
  rintro _ _ ⟨⟩
  exact hj

/-- A row with one operand is legal when every value the operand can have makes a well-formed command. -/
theorem legalBuild_map {α : Type} {value : List (String × String) → Option α} {mk : α → Instr}
    (h : ∀ ops v, value ops = some v → WellFormed defaultCodes (mk v) = true) : LegalBuild fun ops => (value ops).map mk := by
  intro ops i hi
  obtain ⟨v, hv, rfl⟩ := Option.map_eq_some_iff.1 hi
  exact h ops v hv

/-- A C2ENC with a legal full scale and a legal rate is well formed (R92, R93). -/
theorem wellFormed_c2enc {f : BitVec 3} {o : BitVec 4} (hf : fselLegal f = true) (ho : odrselLegal o = true)
    (c : Codes) (ufs uodr : Bool) : WellFormed c (.c2enc f o ufs uodr) = true := by
  rw [WellFormed, hf, ho, Bool.and_self]

/-- Every row of the tables builds well-formed commands only. -/
theorem tables_legal : ∀ row ∈ commandTable ++ pseudoTable, LegalBuild row.2.2 := by
  simp only [commandTable, pseudoTable, List.cons_append, List.nil_append, List.forall_mem_cons, Option.bind_eq_bind]
  refine ⟨legalBuild_const rfl, ?c2enc, legalBuild_const rfl, ?c5enc, legalBuild_const rfl, legalBuild_const rfl,
    legalBuild_map fun _ _ => fsOperand_legal, legalBuild_map fun _ _ => odrOperand_legal,
    legalBuild_map fun _ _ _ => rfl, legalBuild_map fun _ _ _ => rfl, legalBuild_map fun _ _ _ => rfl,
    legalBuild_map fun _ _ _ => rfl, ?c2set, legalBuild_map fun _ _ hf => wellFormed_c2enc (fsOperand_legal hf) rfl ..,
    legalBuild_map fun _ _ ho => wellFormed_c2enc rfl (odrOperand_legal ho) .., legalBuild_map fun _ _ => stOperand_legal,
    legalBuild_map fun _ _ _ => rfl, nofun⟩
  case c2enc =>
    intro ops i h
    simp only [Option.bind_eq_some_iff, Option.some.injEq] at h
    obtain ⟨f, hf, o, ho, ufs, _, uodr, _, rfl⟩ := h
    exact wellFormed_c2enc (fsOperand_legal hf) (odrOperand_legal ho) ..
  case c5enc =>
    intro ops i h
    simp only [Option.bind_eq_some_iff, Option.some.injEq] at h
    obtain ⟨st, hst, ust, _, rnd, _, urnd, _, rfl⟩ := h
    exact stOperand_legal hst
  case c2set =>
    intro ops i h
    simp only [Option.bind_eq_some_iff, Option.some.injEq] at h
    obtain ⟨f, hf, o, ho, rfl⟩ := h
    exact wellFormed_c2enc (fsOperand_legal hf) (odrOperand_legal ho) ..

/-- Settles O55. -/
theorem assembledCommandsAreLegal : Obligations.AssembledCommandsAreLegal := by
  intro mnemonic ops i h
  obtain ⟨names, build, hrow⟩ := exists_row_of_assemble h
  obtain ⟨_, _, hbuild⟩ := (assemble_of_row hrow).1 h
  exact tables_legal _ (mem_of_lookup_eq_some hrow) ops i hbuild

/-! ## Pseudo-commands (R110) -/

/-- A line with a mnemonic's only operand spells the command with the token's value. -/
theorem assemble_given {mnemonic : String} {α : Type} {name t : String} {zero v : α} {token : String → Option α}
    {mk : α → Instr} (hrow : IsRow mnemonic [name] fun ops => (operand ops name zero token).map mk)
    (ht : token t = some v) : assemble mnemonic [(name, t)] = some (mk v) := by
  have hops : ([(name, t)].map Prod.fst).Nodup := List.nodup_singleton name
  exact (assemble_single hrow hops).2 ⟨by simp [OnlyOperands], v, .inr ⟨t, by simp, ht⟩, rfl⟩

/-- Settles O58. -/
theorem pseudoCommandsExpand : Obligations.PseudoCommandsExpand := by
  refine ⟨fun fs odr f o hf ho => ?_, fun _ _ => assemble_given (mk := c2setfs) rfl,
    fun _ _ => assemble_given (mk := c2setodr) rfl, fun _ _ => assemble_given (mk := c5setst) rfl,
    fun _ _ => assemble_given (mk := c5setrnd) rfl, fun _ => rfl⟩
  refine (assemble_of_row rfl).2 ⟨?_, ?_, ?_⟩
  · simp [OnlyOperands]
  · simp
  · simp [fsOperand, odrOperand, operand, List.lookup, hf, ho, c2set]

end Sys2Proof.Machine
end

section
/-! NOP (40_control.md R130), and the command words with a reserved bit above their format's fields (30_encoding.md R103,
R104). -/

namespace Sys2Proof.Machine

/-! ## Words with a reserved bit -/

/-- A word with a bit above the fields of its command's format ends in RSVBITS, whatever its fields hold. -/
theorem execute_of_high {v : Word} {i : Instr} (h : readFields v = some i) (hv : v >>> fieldsEnd i.format ≠ 0) (s : State) :
    execute v s = .next { s with stat := 0x21 } :=
  execute_reserved h (reservedBitsSet_of_high hv) s

/-- A word with the OP of a command of format N that is not the bare OP ends in RSVBITS. -/
theorem execute_of_ne_op {v : Word} {i : Instr} (h : readFields v = some i) (hformat : i.format = .N)
    (hne : v ≠ i.opcode.setWidth 32) (s : State) : execute v s = .next { s with stat := 0x21 } := by
  rw [opcode_of_readFields h] at hne
  have hv : v >>> fieldsEnd i.format ≠ 0 := hformat ▸ high_of_ne_op hne
  exact execute_of_high h hv s

/-! ## NOP -/

/-- Settles O4: OP = 0 spells NOP, whose format has no field. -/
theorem nopOnlyClearsStat : Obligations.NopOnlyClearsStat := by
  refine ⟨rfl, fun s => rfl, fun v s hop hne => ?_⟩
  have hread : readFields v = some .nop := by rw [readFields, hop]; rfl
  exact execute_of_ne_op hread rfl hne s

end Sys2Proof.Machine
end

section
/-! The register codec as functions (41_register_codec.md): the code tables and their inverses (R143 to R145), and what decoding
an encoded byte and re-encoding a decoded one give, over every well-formed parameter record (R157, R158, R166, R167). -/

namespace Sys2Proof.Machine

/-! ## Full scales (R143, R144) -/

/-- The special bit takes precedence over the selector (R144). -/
theorem fsDec_special (sel : BitVec 2) : fsDec 1 sel = (0, sel != 0) := rfl

/-- Without the special bit the selector counts the full scales from 1 (R144). -/
theorem fsDec_selector (sel : BitVec 2) : (fsDec 0 sel).1.toNat = sel.toNat + 1 ∧ (fsDec 0 sel).2 = false := by
  decide +revert

/-- FSDEC inverts FSENC on the five full scales. -/
theorem fsDec_fsEnc {f : BitVec 3} (hf : f ≤ 4) : fsDec (fsEnc f).1 (fsEnc f).2 = (f, false) := by decide +revert

/-- FSENC inverts FSDEC on the canonical pairs. -/
theorem fsEnc_fsDec {special : BitVec 1} {sel : BitVec 2} (h : (fsDec special sel).2 = false) :
    fsEnc (fsDec special sel).1 = (special, sel) := by decide +revert

/-- A pair that is not canonical has a selector other than 0, and its full scale encodes with selector 0. -/
theorem fsEnc_fsDec_noncanon {special : BitVec 1} {sel : BitVec 2} (h : (fsDec special sel).2 = true) :
    sel ≠ 0 ∧ (fsEnc (fsDec special sel).1).2 = 0 := by decide +revert

/-- Settles O40. -/
theorem fullScaleCodesFollowTheTable : Obligations.FullScaleCodesFollowTheTable :=
  ⟨rfl, by decide, fsDec_special, fsDec_selector, fun _ => fsDec_fsEnc⟩

/-! ## Control-2 (R155, R157, R158) -/

section

variable (p : Params) (w : Byte)

/-- The full scale and NONCANON of a control-2 byte are FSDEC's (R155). -/
theorem decodeControl2_fullScale : ((decodeControl2 p w).fsel, (decodeControl2 p w).noncanon) =
    fsDec (getField w p.layout.c2Fs125 1) (getField w p.layout.c2Fsg 2) := rfl

/-- ODRSEL and ODRRSV of a control-2 byte are its rate field's (R155). -/
theorem decodeControl2_rate : ((decodeControl2 p w).odrsel, (decodeControl2 p w).odrrsv) =
    decodeRate p (getField w p.layout.c2Odr 4) := rfl

/-- OFF says that the rate field names rate 0 (R155). -/
theorem decodeControl2_off :
    (decodeControl2 p w).off = (!(decodeControl2 p w).odrrsv && (decodeControl2 p w).odrsel == 0) := rfl

end

/-- Settles O45: the encoded byte's fields are the codes of the selection, which the tables invert. -/
theorem control2RoundTrip : Obligations.Control2RoundTrip := by
  intro p w f o hlayout hcodes hf ho
  obtain ⟨hspecial, hsel, hrate, hunrelated⟩ := encodeControl2_fields p hlayout w f o true true
  generalize encodeControl2 p w f o true true = n at *
  have hfs := decodeControl2_fullScale p n
  rw [hspecial, hsel, if_pos rfl, if_pos rfl, fsDec_fsEnc hf, Prod.mk.injEq] at hfs
  have hodr := decodeControl2_rate p n
  rw [hrate, if_pos rfl, decodeRate_odrWire hcodes o ho, Prod.mk.injEq] at hodr
  obtain ⟨hfsel, hnoncanon⟩ := hfs
  obtain ⟨hodrsel, hodrrsv⟩ := hodr
  refine ⟨hfsel, hodrsel, hnoncanon, hodrrsv, ?_, hunrelated⟩
  rw [decodeControl2_off, hodrrsv, hodrsel]
  rfl

/-- Writing back the codes that a byte already holds changes nothing. -/
theorem encodeControl2_of_codes {p : Params} {w : Byte} {f : BitVec 3} {o : BitVec 4}
    (hfs : fsEnc f = (getField w p.layout.c2Fs125 1, getField w p.layout.c2Fsg 2))
    (hodr : odrWire p o = getField w p.layout.c2Odr 4) : encodeControl2 p w f o true true = w := by
  simp [encodeControl2, putFullScale, putRate, hfs, hodr, putField_getField]

/-- Settles O46: a canonical byte with a named rate holds the codes of what it decodes to; of a byte that is not canonical the
encoder clears the selector, which was not 0. -/
theorem control2DecodeThenEncode : Obligations.Control2DecodeThenEncode := by
  intro p w hlayout hcodes
  refine ⟨fun hcanon hnamed => encodeControl2_of_codes (fsEnc_fsDec hcanon) (odrWire_decodeRate hcodes _ hnamed),
    fun hnoncanon => ?_⟩
  obtain ⟨hsel, hzero⟩ := fsEnc_fsDec_noncanon hnoncanon
  obtain ⟨-, hcleared, -, -⟩ :=
    encodeControl2_fields p hlayout w (decodeControl2 p w).fsel (decodeControl2 p w).odrsel true true
  replace hcleared := hcleared.trans hzero
  exact ⟨hcleared, fun hsame => hsel (hsame ▸ hcleared)⟩

/-! ## Control-5 (R166, R167) -/

section

variable {p : Params} (hp : p.codes.wf = true)
include hp

/-- Well-formed codes tell `ST_RSV` from the three legal self-test codes (log 10). -/
theorem stRsv_ne_legal {st : BitVec 2} (h : st = p.codes.stNone ∨ st = p.codes.stPos ∨ st = p.codes.stNeg) :
    st ≠ p.codes.stRsv := by
  simp only [Codes.wf, Bool.and_eq_true, decide_eq_true_eq] at hp
  obtain ⟨⟨-, hnodup⟩, -⟩ := hp
  simp only [List.nodup_cons, List.mem_cons, not_or] at hnodup
  obtain ⟨⟨-, -, hnone, -⟩, ⟨-, hpos, -⟩, ⟨hneg, -⟩, -⟩ := hnodup
  obtain rfl | rfl | rfl := h
  · exact hnone
  · exact hpos
  · exact hneg

/-- Well-formed codes tell `RND_ON` from `RND_OFF` (log 10). -/
theorem rndOn_ne_rndOff : p.codes.rndOn ≠ p.codes.rndOff := by
  simp only [Codes.wf, Bool.and_eq_true, bne_iff_ne] at hp
  exact hp.2

/-- Decoding the wire value of a rounding setting gives the setting (R160, R165). -/
theorem rndWire_beq_rndOn (rnd : Bool) : (rndWire p rnd == p.codes.rndOn) = rnd := by
  cases rnd
  · exact beq_false_of_ne (rndOn_ne_rndOff hp).symm
  · exact beq_self_eq_true _

/-- A rounding bit is the wire value of the setting it decodes to: the two codes are the bit's only values. -/
theorem rndWire_of_beq_rndOn (r : BitVec 1) : rndWire p (r == p.codes.rndOn) = r := by
  have hne := rndOn_ne_rndOff hp
  rw [rndWire]
  generalize p.codes.rndOn = on at *
  generalize p.codes.rndOff = off at *
  decide +revert

/-- Re-encoding what a control-5 byte decodes to gives the byte back. -/
theorem encodeControl5_decodeControl5 (w : Byte) :
    encodeControl5 p w (decodeControl5 p w).st true (decodeControl5 p w).rnd true = w := by
  simp [encodeControl5, decodeControl5, putField_getField, rndWire_of_beq_rndOn hp]

end

/-- Settles O47: the encoded byte's fields are the code and the rounding value's wire bit, and distinct codes make the decoder
tell them from the others. -/
theorem control5RoundTrip : Obligations.Control5RoundTrip := by
  intro p w st rn hlayout hcodes hst
  obtain ⟨hfield, hrnd, hunrelated⟩ := encodeControl5_fields p hlayout w st true rn true
  rw [if_pos rfl] at hfield hrnd
  refine ⟨hfield, ?_, ?_, hunrelated⟩
  · rw [decodeControl5, hrnd, rndWire_beq_rndOn hcodes]
  · rw [decodeControl5, hfield]
    exact beq_false_of_ne (stRsv_ne_legal hcodes hst)

end Sys2Proof.Machine
end

section
/-! The codec commands (41_register_codec.md R150, R155, R160, R165, R170): what each legal end answers, which result bits hold
which field, and the words that are refused. -/

namespace Sys2Proof.Machine

/-! ## Words and the wire byte -/

/-- A bit of the wire byte is ARG0's (30_encoding.md R98). -/
theorem getLsbD_wireByte (s : State) {i : Nat} (hi : i < 8) : (wireByte s).getLsbD i = s.arg0.getLsbD i := by
  simp [wireByte, hi]

/-- Every format but R has a field at each bit from 4 up to its last field's end (30_encoding.md R91). -/
theorem fieldMask_below {f : Format} (hf : f ≠ .R) {n : Nat} (h4 : 4 ≤ n) (hn : n < fieldsEnd f) :
    f.fieldMask.getLsbD n = true := by
  cases f <;> simp only [ne_eq, not_true_eq_false, Format.fieldMask, fieldsEnd] at * <;> interval_cases n <;> decide

/-- A word with no bit above the fields of a format other than R sets no reserved bit (30_encoding.md R103). -/
theorem reservedBitsSet_of_low {v : Word} {f : Format} (hf : f ≠ .R) (hv : v >>> fieldsEnd f = 0) :
    reservedBitsSet f v = false := by
  rw [← Bool.not_eq_true, reservedBitsSet, bne_iff_ne, outside_mask_ne_zero_iff]
  rintro ⟨i, h4, h32, hset, hmask⟩
  have hlow : ¬i < fieldsEnd f := fun h => by simp [fieldMask_below hf h4 h] at hmask
  exact (shift_ne_zero_iff v _).2 ⟨i, Nat.le_of_not_lt hlow, h32, hset⟩ hv

/-- Running the word of a well-formed command is running the command (30_encoding.md R104, R111). -/
theorem execute_encode {i : Instr} {s : State} (h : WellFormed s.params.codes i = true) :
    execute (encode i) s = exec i s := execute_of_ok (decode_encode h)

/-! ## C2ENC (R150) -/

/-- C2ENC with legal fields answers the encoded byte. -/
theorem exec_c2enc {f : BitVec 3} {o : BitVec 4} (hf : f ≤ 4) (ho : o ≤ 10) (uf uo : Bool) (s : State) :
    exec (.c2enc f o uf uo) s =
      .next (finish (zext32 (encodeControl2 s.params (wireByte s) f o uf uo)) 0 0 0 s) := by
  have hlegal : fieldError s.params.codes (.c2enc f o uf uo) = none := by
    rw [fieldError, if_neg (BitVec.not_lt.2 hf), if_neg (BitVec.not_lt.2 ho)]
  rw [exec, execC2enc, hlegal, checked_none]

/-- OP = 1 spells C2ENC with the word's fields. -/
theorem readFields_c2enc {v : Word} (h : opField v = 1) :
    readFields v = some (.c2enc (fselField v) (odrselField v) (v.getLsbD 11) (v.getLsbD 12)) := by
  rw [readFields, h]
  rfl

/-- Settles O5. -/
theorem c2encReplacesOnlyEnabledFields : Obligations.C2encReplacesOnlyEnabledFields := by
  refine ⟨by decide, fun f o uf uo s hlayout hf ho => ?_, fun v s hop hlow hfs => ?_, fun v s hop hlow hfs hodr => ?_,
    fun v s hop hhigh => execute_of_high (readFields_c2enc hop) hhigh s⟩
  · obtain ⟨hspecial, hsel, hrate, hunrelated⟩ := encodeControl2_fields s.params hlayout (wireByte s) f o uf uo
    exact ⟨_, exec_c2enc hf ho uf uo s, hspecial, hsel, hrate,
      fun i hi hu => (hunrelated i hi hu).trans (getLsbD_wireByte s hi)⟩
  · exact execute_badField (readFields_c2enc hop) (reservedBitsSet_of_low nofun hlow) s (if_pos hfs)
  · refine execute_badField (e := .badodr) (readFields_c2enc hop) (reservedBitsSet_of_low nofun hlow) s ?_
    rw [fieldError, if_neg (BitVec.not_lt.2 hfs), if_pos hodr]

/-! ## C2DEC (R155) -/

/-- The flags of C2DEC's result. -/
theorem packControl2_flags (c : Control2) : (packControl2 c).getLsbD 16 = c.noncanon ∧
    (packControl2 c).getLsbD 17 = c.odrrsv ∧ (packControl2 c).getLsbD 18 = c.off := by
  refine ⟨?_, ?_, ?_⟩ <;> rw [getLsbD_packControl2 c _ (by omega)] <;> simp

/-- The bits of C2DEC's result outside its fields are 0. -/
theorem packControl2_elsewhere (c : Control2) {i : Nat} (h : i < 4 ∨ (11 ≤ i ∧ i < 16) ∨ 19 ≤ i) :
    (packControl2 c).getLsbD i = false := by
  by_cases hi : i < 32
  · rw [getLsbD_packControl2 c i hi, Bool.eq_false_iff]
    simp only [ne_eq, Bool.or_eq_true, Bool.and_eq_true, decide_eq_true_eq, beq_iff_eq]
    omega
  · exact BitVec.getLsbD_of_ge _ i (Nat.le_of_not_lt hi)

/-- A rate code that is no rate's decodes to itself, flagged. -/
theorem decodeRate_of_forall_ne {p : Params} (hp : p.codes.wf = true) {o : BitVec 4}
    (h : ∀ k : BitVec 4, k ≤ 10 → odrWire p k ≠ o) : decodeRate p o = (o, true) := by
  obtain ⟨hlength, -⟩ := odrWire_wf hp
  have hmem : o ∉ p.codes.odrWire := by
    intro hmem
    obtain ⟨k, hk, rfl⟩ := List.getElem_of_mem hmem
    refine h (BitVec.ofNat 4 k) ?_ ?_
    · change k % 2 ^ 4 ≤ 10
      omega
    · rw [odrWire, BitVec.toNat_ofNat, Nat.mod_eq_of_lt (by omega), List.getD_eq_getElem _ _ hk]
  rw [decodeRate, odrIndex, List.idxOf?_eq_none_iff.2 hmem]

/-- Settles O6. -/
theorem c2decReturnsTheFieldSet : Obligations.C2decReturnsTheFieldSet := by
  refine ⟨rfl, fun s hcodes => ⟨packControl2 (decodeControl2 s.params (wireByte s)), rfl, ?_⟩, fun v s hop hne => ?_⟩
  · have hfs := decodeControl2_fullScale s.params (wireByte s)
    have hrate := decodeControl2_rate s.params (wireByte s)
    have hoff := decodeControl2_off s.params (wireByte s)
    rw [wireByte] at *
    generalize decodeControl2 s.params (s.arg0.extractLsb' 0 8) = c at *
    obtain ⟨hnoncanon, hrsv, hoffbit⟩ := packControl2_flags c
    rw [fselField_packControl2, odrselField_packControl2, hnoncanon, hrsv, hoffbit, hoff]
    refine ⟨fun hspecial => ?_, fun hplain => ?_, fun k hk hcode => ?_, fun hnone => ?_,
      fun i => packControl2_elsewhere c⟩
    · rw [hspecial, fsDec_special] at hfs
      exact Prod.mk.inj hfs
    · rw [hplain] at hfs
      have hsel := fsDec_selector (getField (s.arg0.extractLsb' 0 8) s.params.layout.c2Fsg 2)
      rwa [← hfs] at hsel
    · rw [← hcode, decodeRate_odrWire hcodes k hk] at hrate
      obtain ⟨hodrsel, hodrrsv⟩ := Prod.mk.inj hrate
      exact ⟨hodrsel, hodrrsv, by rw [hodrsel, hodrrsv]; rfl⟩
    · rw [decodeRate_of_forall_ne hcodes hnone] at hrate
      obtain ⟨hodrsel, hodrrsv⟩ := Prod.mk.inj hrate
      exact ⟨hodrsel, hodrrsv, by rw [hodrrsv]; rfl⟩
  · have hread : readFields v = some .c2dec := by rw [readFields, hop]; rfl
    exact execute_of_ne_op hread rfl hne s

/-! ## C5ENC (R160) -/

/-- C5ENC with a legal self-test code answers the encoded byte. -/
theorem exec_c5enc {s : State} {st : BitVec 2} (hst : st ≠ s.params.codes.stRsv) (us rn ur : Bool) :
    exec (.c5enc st us rn ur) s =
      .next (finish (zext32 (encodeControl5 s.params (wireByte s) st us rn ur)) 0 0 0 s) := by
  have hlegal : fieldError s.params.codes (.c5enc st us rn ur) = none := if_neg hst
  rw [exec, execC5enc, hlegal, checked_none]

/-- OP = 3 spells C5ENC with the word's fields. -/
theorem readFields_c5enc {v : Word} (h : opField v = 3) :
    readFields v = some (.c5enc (stselField v) (v.getLsbD 6) (v.getLsbD 7) (v.getLsbD 8)) := by
  rw [readFields, h]
  rfl

/-- Settles O7. -/
theorem c5encReplacesOnlyEnabledFields : Obligations.C5encReplacesOnlyEnabledFields := by
  refine ⟨by decide, fun st us rn ur s hlayout hst => ?_, fun v s hop hlow hrsv => ?_,
    fun v s hop hhigh => execute_of_high (readFields_c5enc hop) hhigh s⟩
  · obtain ⟨hfield, hrnd, hunrelated⟩ := encodeControl5_fields s.params hlayout (wireByte s) st us rn ur
    exact ⟨_, exec_c5enc hst us rn ur, hfield, hrnd,
      fun i hi hu => (hunrelated i hi hu).trans (getLsbD_wireByte s hi)⟩
  · exact execute_badField (readFields_c5enc hop) (reservedBitsSet_of_low nofun hlow) s (if_pos hrsv)

/-! ## C5DEC (R165, R167) -/

/-- The flags of C5DEC's result. -/
theorem packControl5_flags (c : Control5) : (packControl5 c).getLsbD 7 = c.rnd ∧ (packControl5 c).getLsbD 16 = c.strsv ∧
    (packControl5 c).getLsbD 17 = c.stactive ∧ (packControl5 c).getLsbD 18 = c.stneg := by
  refine ⟨?_, ?_, ?_, ?_⟩ <;> rw [getLsbD_packControl5 c _ (by omega)] <;> simp

/-- The bits of C5DEC's result outside its fields are 0. -/
theorem packControl5_elsewhere (c : Control5) {i : Nat} (h : i < 4 ∨ i = 6 ∨ (8 ≤ i ∧ i < 16) ∨ 19 ≤ i) :
    (packControl5 c).getLsbD i = false := by
  by_cases hi : i < 32
  · rw [getLsbD_packControl5 c i hi, Bool.eq_false_iff]
    simp only [ne_eq, Bool.or_eq_true, Bool.and_eq_true, decide_eq_true_eq, beq_iff_eq]
    omega
  · exact BitVec.getLsbD_of_ge _ i (Nat.le_of_not_lt hi)

/-- Settles O8. -/
theorem c5decReturnsTheFieldSet : Obligations.C5decReturnsTheFieldSet := by
  refine ⟨rfl, fun s => ⟨packControl5 (decodeControl5 s.params (wireByte s)), rfl, ?_⟩, fun v s hop hne => ?_⟩
  · obtain ⟨hrnd, hrsv, hactive, hneg⟩ := packControl5_flags (decodeControl5 s.params (wireByte s))
    rw [stselField_packControl5]
    exact ⟨rfl, hrnd, hrsv, hactive, hneg, fun i => packControl5_elsewhere _⟩
  · have hread : readFields v = some .c5dec := by rw [readFields, hop]; rfl
    exact execute_of_ne_op hread rfl hne s

/-- Bits [7:4] of a C5DEC result, with OP, UST and URND put in, are the word of the C5ENC that writes ST and RND. -/
theorem encode_of_packControl5 (c : Control5) :
    packControl5 c &&& 0xF0 ||| (0x3 ||| 1 <<< 6 ||| 1 <<< 8) = encode (.c5enc c.st true c.rnd true) := by
  obtain ⟨st, rnd, strsv, stactive, stneg⟩ := c
  decide +revert

/-- Settles O48: the word is that of a legal C5ENC, and the byte already holds the codes that it writes. -/
theorem control5ResultReencodes : Obligations.Control5ResultReencodes := by
  rintro s t hcodes ⟨⟩ hclear
  rw [finish_res0] at hclear ⊢
  obtain ⟨-, hflag, -, -⟩ := packControl5_flags (decodeControl5 s.params (wireByte s))
  have hst : (decodeControl5 s.params (wireByte s)).st ≠ s.params.codes.stRsv := ne_of_beq_false (hflag.symm.trans hclear)
  have hlegal : WellFormed s.params.codes (.c5enc (decodeControl5 s.params (wireByte s)).st true
      (decodeControl5 s.params (wireByte s)).rnd true) = true := bne_iff_ne.2 hst
  rw [encode_of_packControl5, execute_encode hlegal, exec_c5enc hst, encodeControl5_decodeControl5 hcodes]
  exact ⟨_, rfl, rfl, rfl⟩

/-! ## STADEC (R170) -/

/-- A one-bit field is the bit at its place. -/
theorem getField_one (w : Byte) (lo : Nat) : getField w lo 1 = BitVec.ofBool (w.getLsbD lo) := by
  apply BitVec.eq_of_getLsbD_eq
  intro i hi
  obtain rfl : i = 0 := by omega
  rw [getLsbD_getField]
  simp

/-- Settles O9. -/
theorem stadecReturnsDataReady : Obligations.StadecReturnsDataReady := by
  refine ⟨rfl, fun s hlayout => ?_, fun v s hop hne => ?_⟩
  · have hplace : s.params.layout.srGda < 8 := by
      simp only [Layout.wf, Bool.and_eq_true, decide_eq_true_eq] at hlayout
      omega
    rw [exec, execStadec, finish_eq, decodeStatus, getField_one, getLsbD_wireByte s hplace]
    cases s.arg0.getLsbD s.params.layout.srGda <;> rfl
  · have hread : readFields v = some .stadec := by rw [readFields, hop]; rfl
    exact execute_of_ne_op hread rfl hne s

end Sys2Proof.Machine
end

section
/-! The raw-sample scaler (42_scaler.md): its factor, the exact product that fits a result register, and SCALE. -/

namespace Sys2Proof.Machine

/-! ## The factor K (R201) -/

/-- The factor of a full scale that FSEL names. -/
theorem scaleFactor_eq {f : BitVec 3} (hf : f ≤ 4) : scaleFactor f = 35 * 2 ^ f.toNat := by decide +revert

/-- No FSEL has a factor above that of 2000 dps. -/
theorem scaleFactor_le (f : BitVec 3) : scaleFactor f ≤ 560 := by decide +revert

/-- The factor of a full scale is not 0. -/
theorem scaleFactor_pos {f : BitVec 3} (hf : f ≤ 4) : 0 < scaleFactor f := by
  rw [scaleFactor_eq hf]
  positivity

/-- The next full scale has twice the factor. -/
theorem scaleFactor_succ {f : BitVec 3} (hf : f ≤ 3) : scaleFactor (f + 1) = 2 * scaleFactor f := by decide +revert

/-- Settles O41: the table's five rows are compared. -/
theorem scaleFactorIsEightTimesSensitivity : Obligations.ScaleFactorIsEightTimesSensitivity := by
  refine fun f hf => ⟨scaleFactor_eq hf, sensMicroDps.getD f.toNat 0, ?_⟩
  decide +revert

/-- The factor is 8 times the sensitivity in mdps per LSB, which the table gives in thousandths. -/
theorem scaleFactor_of_sens {f : BitVec 3} (hf : f ≤ 4) {sens : Nat} (h : sensMicroDps[f.toNat]? = some sens) :
    1000 * scaleFactor f = 8 * sens := by
  obtain ⟨-, sens', hsens', hfactor⟩ := scaleFactorIsEightTimesSensitivity f hf
  rwa [Option.some.inj (h.symm.trans hsens')]

/-! ## The product (R202, R204) -/

/-- A raw sample in range scales to a number between the extremes of 2000 dps. -/
theorem scaled_bounds (f : BitVec 3) {r : Int} (hmin : -32768 ≤ r) (hmax : r ≤ 32767) :
    -18350080 ≤ scaled f r ∧ scaled f r ≤ 18349520 := by
  have hfactor : (scaleFactor f : Int) ≤ 560 := mod_cast scaleFactor_le f
  have hlow : -32768 * (scaleFactor f : Int) ≤ scaled f r := mul_le_mul_of_nonneg_right hmin (Int.natCast_nonneg _)
  have hhigh : scaled f r ≤ 32767 * (scaleFactor f : Int) := mul_le_mul_of_nonneg_right hmax (Int.natCast_nonneg _)
  omega

/-- The result register holds the product of a raw sample in range exactly. -/
theorem sext32_scaled (f : BitVec 3) {r : Int} (hmin : -32768 ≤ r) (hmax : r ≤ 32767) :
    sext32 (toBits32 (scaled f r)) = scaled f r := by
  obtain ⟨hlow, hhigh⟩ := scaled_bounds f hmin hmax
  exact sext32_toBits32 _ (by omega) (by omega)

/-- A product in units of 1/8 mdps, divided by 8000, is the document's value in dps. -/
theorem scaled_div_eq_dps {f : BitVec 3} (hf : f ≤ 4) {sens : Nat} (h : sensMicroDps[f.toNat]? = some sens) (r : Int) :
    (scaled f r : ℚ) / 8000 = (r : ℚ) * ((sens : ℚ) / 1000) / 1000 := by
  have hfactor : 1000 * (scaleFactor f : ℚ) = 8 * sens := mod_cast scaleFactor_of_sens hf h
  have hproduct : (scaled f r : ℚ) = r * scaleFactor f := by rw [scaled]; push_cast; rfl
  rw [hproduct]
  linear_combination (r : ℚ) / 8000000 * hfactor

/-! ## The laws of the scaler (R207) -/

theorem scaled_zero (f : BitVec 3) : scaled f 0 = 0 := zero_mul _

theorem scaled_neg (f : BitVec 3) (r : Int) : scaled f (-r) = -scaled f r := neg_mul _ _

theorem scaled_add (f : BitVec 3) (r s : Int) : scaled f (r + s) = scaled f r + scaled f s := add_mul _ _ _

theorem scaled_lt_scaled {f : BitVec 3} (hf : f ≤ 4) {r s : Int} (h : r < s) : scaled f r < scaled f s :=
  mul_lt_mul_of_pos_right h (mod_cast scaleFactor_pos hf)

theorem scaled_succ {f : BitVec 3} (hf : f ≤ 3) (r : Int) : scaled (f + 1) r = 2 * scaled f r := by
  rw [scaled, scaled, scaleFactor_succ hf, Nat.cast_mul, Nat.cast_two, mul_left_comm]

/-- Settles O50: the register holds the product exactly, and the laws are those of a product with K. -/
theorem scalerLaws : Obligations.ScalerLaws := by
  refine fun f hf => ⟨?_, fun r hmin hmax => ?_, fun r s hrmin hrmax hsmin hsmax hmin hmax => ?_,
    fun r s hmin hlt hmax => ?_, fun r hmin hmax hf3 => ?_⟩
  · rw [scaled_zero]
    rfl
  · rw [sext32_scaled f (by omega) (by omega), sext32_scaled f (by omega) hmax, scaled_neg]
  · rw [sext32_scaled f hmin hmax, sext32_scaled f hrmin hrmax, sext32_scaled f hsmin hsmax, scaled_add]
  · rw [sext32_scaled f hmin (by omega), sext32_scaled f (by omega) hmax]
    exact scaled_lt_scaled hf hlt
  · rw [sext32_scaled _ hmin hmax, sext32_scaled f hmin hmax, scaled_succ hf3]

/-! ## SCALE (R205) -/

/-- SCALE with a legal FSEL answers the three products and K. -/
theorem exec_scale {f : BitVec 3} (hf : f ≤ 4) (s : State) :
    exec (.scale f) s = .next (finish (toBits32 (scaled f (rawSample s.arg0))) (toBits32 (scaled f (rawSample s.arg1)))
      (toBits32 (scaled f (rawSample s.arg2))) (natBits32 (scaleFactor f)) s) := by
  have hlegal : fieldError s.params.codes (.scale f) = none := if_neg (BitVec.not_lt.2 hf)
  rw [exec, execScale, hlegal, checked_none]

/-- OP = 6 spells SCALE with the word's FSEL. -/
theorem readFields_scale {v : Word} (h : opField v = 6) : readFields v = some (.scale (fselField v)) := by
  rw [readFields, h]
  rfl

/-- Settles O10: each lane is its own raw sample times K, and K is `35 * 2 ^ FSEL`. -/
theorem scaleMultipliesEachLane : Obligations.ScaleMultipliesEachLane := by
  refine ⟨by decide, fun f s hf => ?_, fun v s hop hlow hfs => ?_,
    fun v s hop hhigh => execute_of_high (readFields_scale hop) hhigh s⟩
  · have hfactor : (scaleFactor f : Int) = 35 * 2 ^ f.toNat := by exact_mod_cast scaleFactor_eq hf
    rw [exec_scale hf, finish_eq, natBits32, scaleFactor_eq hf]
    simp only [toBits32, scaled, rawSample, hfactor]
  · exact execute_badField (readFields_scale hop) (reservedBitsSet_of_low nofun hlow) s (if_pos hfs)

/-- Settles O49: each lane of the answer is the exact product of its raw sample. -/
theorem scaleResultIsExact : Obligations.ScaleResultIsExact := by
  refine fun f s sens hf hsens => ⟨_, exec_scale hf s, fun arg res hmem => ?_⟩
  have hlane : res = toBits32 (scaled f (rawSample arg)) := by
    simp only [List.mem_cons, Prod.mk.injEq, List.not_mem_nil, or_false] at hmem
    obtain ⟨rfl, rfl⟩ | ⟨rfl, rfl⟩ | ⟨rfl, rfl⟩ := hmem <;> rfl
  obtain ⟨hmin, hmax⟩ := rawSample_bounds arg
  have hexact : res.toInt = scaled f (rawSample arg) := hlane ▸ sext32_scaled f hmin hmax
  obtain ⟨hlow, hhigh⟩ := scaled_bounds f hmin hmax
  rw [hexact]
  exact ⟨rfl, hlow, hhigh, scaled_div_eq_dps hf hsens _⟩

end Sys2Proof.Machine
end

section
/-! The data-ready timeout (43_drdy_timeout.md): the default table against its derivation, the table's laws, and DRDYTMO. -/

namespace Sys2Proof.Machine

/-! ## Rounding to nearest (R220, R221) -/

/-- A quotient rounded half up is strictly less than 1/2 away from the exact one, unless the exact one is a tie. -/
theorem abs_roundedDiv_sub_lt {a r : Nat} (hr : 0 < r) (htie : ¬2 * r ∣ 2 * a + r) :
    |(((2 * a + r) / (2 * r) : Nat) : ℚ) - a / r| < 1 / 2 := by
  have hdiv : 2 * r * ((2 * a + r) / (2 * r)) + (2 * a + r) % (2 * r) = 2 * a + r := Nat.div_add_mod _ _
  have hpos : 0 < (2 * a + r) % (2 * r) := Nat.emod_pos_of_not_dvd htie
  have hlt : (2 * a + r) % (2 * r) < 2 * r := Nat.mod_lt _ (by omega)
  generalize (2 * a + r) / (2 * r) = n at *
  generalize (2 * a + r) % (2 * r) = m at *
  have hr' : (0 : ℚ) < r := mod_cast hr
  have hdiv' : 2 * (r : ℚ) * n + m = 2 * a + r := mod_cast hdiv
  have hpos' : (0 : ℚ) < m := mod_cast hpos
  have hlt' : (m : ℚ) < 2 * r := mod_cast hlt
  have hdist : (n : ℚ) - a / r = (r - m) / (2 * r) := by
    field_simp
    linear_combination hdiv'
  rw [hdist, abs_lt, lt_div_iff₀ (by positivity), div_lt_iff₀ (by positivity)]
  constructor <;> linarith

/-! ## The default table (R222, R227) -/

/-- Each entry of the default table is the derivation's timeout for the rate. -/
theorem timeoutMs_default {k : BitVec 4} (hk : k ≤ 10) :
    timeoutMs defaultParams k = derivedTimeoutMs (rateTenthsHz.getD k.toNat 0) := by decide +revert

/-- 1.25 sample periods of a rate are 12500 ms over its tenths of a hertz, which is halfway between two integers for no rate
(R221). -/
theorem rate_no_tie {k : BitVec 4} (hk1 : 1 ≤ k) (hk : k ≤ 10) :
    ∃ rate, rateTenthsHz[k.toNat]? = some rate ∧ 0 < rate ∧ ¬2 * rate ∣ 2 * 12500 + rate := by
  refine ⟨rateTenthsHz.getD k.toNat 0, ?_⟩
  decide +revert

/-- Settles O42: the table is the derivation, whose rounded quotient is the nearest integer because no rate is a tie. -/
theorem timeoutFollowsTheDerivation : Obligations.TimeoutFollowsTheDerivation := by
  refine ⟨rfl, fun k hk1 hk => ?_⟩
  obtain ⟨rate, hrate, hpos, htie⟩ := rate_no_tie hk1 hk
  refine ⟨rate, (2 * 12500 + rate) / (2 * rate), hrate, ?_, ?_⟩
  · rw [timeoutMs_default hk, List.getD_eq_getElem?_getD, hrate]
    exact if_neg hpos.ne'
  · have hperiod : 1.25 * 1000 / ((rate : ℚ) / 10) = (12500 : Nat) / rate := by
      field_simp
      norm_num
    rw [hperiod]
    exact abs_roundedDiv_sub_lt hpos htie

/-- Settles O43: the default table's entries are compared, and the addend of DLY bounds it for every table. -/
theorem timeoutTableLaws : Obligations.TimeoutTableLaws :=
  ⟨by decide, by decide, fun _ _ => Nat.le_add_left delayAddendMs _⟩

/-! ## DRDYTMO (R225) -/

/-- The timeout of a rate that has an entry. -/
theorem timeoutMs_of_entry {p : Params} {k : BitVec 4} {t : Nat} (h : p.tmo[k.toNat]? = some t) : timeoutMs p k = t := by
  rw [timeoutMs, List.getD_eq_getElem?_getD, h, Option.getD_some]

/-- DRDYTMO with a legal ODRSEL answers the rate's timeout and delay. -/
theorem exec_drdytmo {o : BitVec 4} (ho : o ≤ 10) (s : State) :
    exec (.drdytmo o) s = .next (finish (natBits32 (timeoutMs s.params o)) (natBits32 (delayMs s.params o)) 0 0 s) := by
  have hlegal : fieldError s.params.codes (.drdytmo o) = none := if_neg (BitVec.not_lt.2 ho)
  rw [exec, execDrdytmo, hlegal, checked_none]

/-- OP = 7 spells DRDYTMO with the word's ODRSEL. -/
theorem readFields_drdytmo {v : Word} (h : opField v = 7) : readFields v = some (.drdytmo (odrselField v)) := by
  rw [readFields, h]
  rfl

/-- The reserved bits of format R are [31:11] and [6:4] (30_encoding.md R91, R103). -/
theorem outside_fieldMask_R (v : Word) : v &&& 0xFFFFFFF0 &&& ~~~Format.R.fieldMask = v &&& 0xFFFFF870 :=
  BitVec.and_assoc v _ _

/-- A well-formed record has a timeout for each of the eleven rates (R222, log 10). -/
theorem exists_timeout_of_wf {p : Params} (hp : p.wf = true) {o : BitVec 4} (ho : o ≤ 10) :
    ∃ t, p.tmo[o.toNat]? = some t := by
  simp only [Params.wf, Bool.and_eq_true, beq_iff_eq] at hp
  obtain ⟨_, hlength⟩ := hp
  have hrate : o.toNat ≤ 10 := ho
  exact ⟨_, List.getElem?_eq_getElem (by omega)⟩

/-- Settles O11: a legal rate's entry is read from the table, and of the other words the check that fails names the error. -/
theorem drdytmoReturnsTimeoutAndDelay : Obligations.DrdytmoReturnsTimeoutAndDelay := by
  refine ⟨by decide, fun o s t ho hentry => ?_, fun o s hp ho => exists_timeout_of_wf hp ho, fun v s hop hlow hodr => ?_,
    fun v s hop hhigh => ?_⟩
  · rw [exec_drdytmo ho, finish_eq, delayMs, timeoutMs_of_entry hentry]
    rfl
  · have hbits : reservedBitsSet .R v = false := (reservedBitsSet_eq_false_iff .R v).2 ((outside_fieldMask_R v).trans hlow)
    exact execute_badField (readFields_drdytmo hop) hbits s (if_pos hodr)
  · have hbits : reservedBitsSet .R v = true := bne_iff_ne.2 ((outside_fieldMask_R v).trans_ne hhigh)
    exact execute_reserved (readFields_drdytmo hop) hbits s

end Sys2Proof.Machine
end

section
/-! The self-test mode table (44_selftest_compare.md R240, R241) and STCFG (R245). -/

namespace Sys2Proof.Machine

/-! ## The mode table (R240, R241) -/

/-- The window by MODE[1], whatever MODE[0]. -/
theorem window_eq (m : BitVec 2) : window m = if m.getLsbD 1 then (150, 700) else (20, 80) := by decide +revert

/-- The full scale by MODE[1], whatever MODE[0]. -/
theorem modeFsel_eq (m : BitVec 2) : modeFsel m = if m.getLsbD 1 then 4 else 1 := by decide +revert

/-- The other sign has the same window. -/
theorem window_xor_one (m : BitVec 2) : window (m ^^^ 1) = window m := by
  have hscale : (m ^^^ 1).getLsbD 1 = m.getLsbD 1 := by simp
  rw [window_eq, window_eq, hscale]

/-- The window's test of a difference (R265). -/
theorem withinWindow_iff (win : Nat × Nat) (n0 n1 : Word) (d : Nat) : withinWindow win n0 n1 d = true ↔
    win.1 * n0.toNat * n1.toNat ≤ d ∧ d ≤ win.2 * n0.toNat * n1.toNat := by
  rw [withinWindow, Bool.and_eq_true, decide_eq_true_iff, decide_eq_true_iff]

/-- With one sample in each bank the difference is compared with the bounds themselves. -/
theorem withinWindow_one_one (win : Nat × Nat) (d : Nat) : withinWindow win 1 1 d = true ↔ win.1 ≤ d ∧ d ≤ win.2 := by
  simp [withinWindow_iff]

/-- Settles O44. -/
theorem windowDependsOnFullScaleAlone : Obligations.WindowDependsOnFullScaleAlone :=
  ⟨fun m hm => by rw [window_eq, hm]; rfl, fun m hm => by rw [window_eq, hm]; rfl, fun m => withinWindow_one_one (window m)⟩

/-! ## STCFG (R245) -/

/-- OP = 8 spells STCFG with the word's MODE. -/
theorem readFields_stcfg {v : Word} (h : opField v = 8) : readFields v = some (.stcfg (modeField v)) := by
  rw [readFields, h]
  rfl

/-- Settles O12: MODE[1] chooses the row of the table, and MODE[0] the code. -/
theorem stcfgReturnsTheModeTable : Obligations.StcfgReturnsTheModeTable := by
  refine ⟨by decide, fun m s => ?_, fun v s hop hhigh => execute_of_high (readFields_stcfg hop) hhigh s⟩
  rw [exec, execStcfg, finish_eq, modeFsel_eq, window_eq, modeCode, modeNegative]
  cases m.getLsbD 1 <;> rfl

end Sys2Proof.Machine
end

section
/-! The accumulator banks' commands: ACCCLR (44_selftest_compare.md R250), and ACCADD with the range of its sums (R254, R255). -/

namespace Sys2Proof.Machine

/-! ## ACCCLR (R250) -/

/-- OP = 9 spells ACCCLR with the word's BANK. -/
theorem readFields_accclr {v : Word} (h : opField v = 9) : readFields v = some (.accclr (bankField v)) := by
  rw [readFields, h]
  rfl

/-- Settles O13. -/
theorem accclrEmptiesOneBank : Obligations.AccclrEmptiesOneBank :=
  ⟨rfl, rfl, fun _ => rfl, fun _ => rfl, fun _ s hop hhigh => execute_of_high (readFields_accclr hop) hhigh s⟩

/-! ## ACCADD (R254, R255) -/

/-- ACCADD on a bank that is not full answers the bank with the sample added, and its new values as the results. -/
theorem exec_accadd {b : Bank} {s : State} (hfull : (bankOf s b).cnt ≠ 255) :
    exec (.accadd b) s =
      .next (finish (addSample (bankOf s b).x s.arg0) (addSample (bankOf s b).y s.arg1) (addSample (bankOf s b).z s.arg2)
        ((bankOf s b).cnt + 1) (setBank b (accumulate (bankOf s b) s) s)) := by
  have hadd : addError (bankOf s b) = none := if_neg hfull
  rw [exec, execAccadd, hadd, checked_none]
  rfl

/-- ACCADD on a full bank ends in ACCFULL. -/
theorem exec_accadd_full {b : Bank} {s : State} (hfull : (bankOf s b).cnt = 255) :
    exec (.accadd b) s = .next { s with stat := 0x61 } := by
  have hadd : addError (bankOf s b) = some .accfull := if_pos hfull
  rw [exec, execAccadd, hadd, checked_some]
  rfl

/-- OP = 10 spells ACCADD with the word's BANK. -/
theorem readFields_accadd {v : Word} (h : opField v = 10) : readFields v = some (.accadd (bankField v)) := by
  rw [readFields, h]
  rfl

/-- Settles O14. -/
theorem accaddAddsOneSample : Obligations.AccaddAddsOneSample := by
  refine ⟨rfl, rfl, fun b s hfull => ⟨_, exec_accadd hfull, ?_⟩, fun b s => exec_accadd_full,
    fun v s hop hhigh => execute_of_high (readFields_accadd hop) hhigh s⟩
  cases b <;> exact ⟨rfl, rfl, rfl, rfl, rfl, rfl⟩

/-- A sum of fewer than 255 samples with one more added is the exact sum, in the range of 255 samples. -/
theorem addSample_exact {sum cnt : Word} (arg : Word) (hcnt : cnt.toNat < 255) (hsucc : (cnt + 1).toNat = cnt.toNat + 1)
    (hsum : SumWf sum cnt) : (addSample sum arg).toInt = sum.toInt + (arg.extractLsb' 0 16).toInt ∧
      -8355840 ≤ (addSample sum arg).toInt ∧ (addSample sum arg).toInt ≤ 8355585 := by
  obtain ⟨hlow, hhigh⟩ := sumWf_addSample arg hcnt hsucc hsum
  rw [hsucc, sext32] at hlow hhigh
  exact ⟨sext32_addSample arg hcnt hsum, by omega, by omega⟩

/-- Settles O51: each new sum is a sum of at most 255 samples. -/
theorem accumulatorNeverWraps : Obligations.AccumulatorNeverWraps := by
  intro b s ⟨hcnt, hx, hy, hz⟩ hfull
  obtain ⟨hsucc, hlt⟩ := cnt_succ hcnt hfull
  refine ⟨_, exec_accadd hfull, fun old arg new hmem => ?_⟩
  rw [bankOf_finish, bankOf_setBank, accumulate_x, accumulate_y, accumulate_z] at hmem
  simp only [List.mem_cons, Prod.mk.injEq, List.not_mem_nil, or_false] at hmem
  obtain ⟨rfl, rfl, rfl⟩ | ⟨rfl, rfl, rfl⟩ | ⟨rfl, rfl, rfl⟩ := hmem
  · exact addSample_exact _ hlt hsucc hx
  · exact addSample_exact _ hlt hsucc hy
  · exact addSample_exact _ hlt hsucc hz

end Sys2Proof.Machine
end

section
/-! The comparator (44_selftest_compare.md): STCMP's answer (R265), the range of its differences (R262), its verdict as a
comparison of averages (R260), and its laws (R273). -/

namespace Sys2Proof.Machine

/-! ## STCMP (R265) -/

/-- STCMP on two banks with samples answers their comparison. -/
theorem exec_stcmp {m : BitVec 2} {s : State} (h0 : s.bank0.cnt ≠ 0) (h1 : s.bank1.cnt ≠ 0) :
    exec (.stcmp m) s = .next (compareBanks (window m) s.bank0 s.bank1 s) := by
  have hcompare : compareError s.bank0 s.bank1 = none := if_neg (not_or_intro h0 h1)
  rw [exec, execStcmp, hcompare, checked_none]

/-- STCMP with an empty bank ends in CNTZERO. -/
theorem exec_stcmp_empty {m : BitVec 2} {s : State} (h : s.bank0.cnt = 0 ∨ s.bank1.cnt = 0) :
    exec (.stcmp m) s = .next { s with stat := 0x71 } := by
  have hcompare : compareError s.bank0 s.bank1 = some .cntzero := if_pos h
  rw [exec, execStcmp, hcompare, checked_some]
  rfl

/-- OP = 11 spells STCMP with the word's MODE. -/
theorem readFields_stcmp {v : Word} (h : opField v = 11) : readFields v = some (.stcmp (modeField v)) := by
  rw [readFields, h]
  rfl

/-! ## The verdict word (R265) -/

/-- The three axes of two banks: the axis's bit in RES0, and its sum in either bank. -/
def axes (b0 b1 : AccBank) : List (Nat × Word × Word) := [(1, b0.x, b1.x), (2, b0.y, b1.y), (3, b0.z, b1.z)]

section
variable (px py pz : Bool)

theorem packVerdict_pass : (packVerdict px py pz).getLsbD 0 = (px && py && pz) := by decide +revert

theorem packVerdict_passx : (packVerdict px py pz).getLsbD 1 = px := by decide +revert

theorem packVerdict_passy : (packVerdict px py pz).getLsbD 2 = py := by decide +revert

theorem packVerdict_passz : (packVerdict px py pz).getLsbD 3 = pz := by decide +revert

/-- RES0 has no flag from bit 4 up. -/
theorem packVerdict_elsewhere {i : Nat} (hi : 4 ≤ i) : (packVerdict px py pz).getLsbD i = false := by
  by_cases h32 : i < 32
  · rw [getLsbD_packVerdict _ _ _ _ h32]
    simp
    omega
  · exact BitVec.getLsbD_of_ge _ _ (by omega)

end

section
variable (win : Nat × Nat) (b0 b1 : AccBank) (s : State)

/-- An axis's flag is the window's test of its difference. -/
theorem verdict_axis {k : Nat} {s0 s1 : Word} (h : (k, s0, s1) ∈ axes b0 b1) :
    (compareBanks win b0 b1 s).res0.getLsbD k = withinWindow win b0.cnt b1.cnt (difference s0 b0.cnt s1 b1.cnt) := by
  simp only [axes, List.mem_cons, Prod.mk.injEq, List.not_mem_nil, or_false] at h
  rw [compareBanks, finish_res0]
  obtain ⟨rfl, rfl, rfl⟩ | ⟨rfl, rfl, rfl⟩ | ⟨rfl, rfl, rfl⟩ := h
  · exact packVerdict_passx ..
  · exact packVerdict_passy ..
  · exact packVerdict_passz ..

/-- PASS is the conjunction of the axes' flags. -/
theorem verdict_pass : (compareBanks win b0 b1 s).res0.getLsbD 0 = ((compareBanks win b0 b1 s).res0.getLsbD 1 &&
    (compareBanks win b0 b1 s).res0.getLsbD 2 && (compareBanks win b0 b1 s).res0.getLsbD 3) := by
  rw [compareBanks, finish_res0, packVerdict_pass, packVerdict_passx, packVerdict_passy, packVerdict_passz]

end

/-- The difference of two sums, as the registers hold them (R261). -/
theorem difference_eq (s0 n0 s1 n1 : Word) :
    difference s0 n0 s1 n1 = (s1.toInt * n0.toNat - s0.toInt * n1.toNat).natAbs := rfl

/-- Settles O15: the window is MODE[1]'s row of the table, and each flag its axis's test. -/
theorem stcmpComparesTheBanks : Obligations.StcmpComparesTheBanks := by
  refine ⟨by decide, fun m s n0 n1 lo hi dx dy dz hn0 hn1 h0 h1 hlo hhi hdx hdy hdz => ?_, fun m s => exec_stcmp_empty,
    fun v s hop hhigh => execute_of_high (readFields_stcmp hop) hhigh s⟩
  have hwin : window m = (lo, hi) := by rw [window_eq, hlo, hhi]; cases m.getLsbD 1 <;> rfl
  subst hn0 hn1 hdx hdy hdz
  have hc0 : s.bank0.cnt ≠ 0 := fun h => h0 (congrArg BitVec.toNat h)
  have hc1 : s.bank1.cnt ≠ 0 := fun h => h1 (congrArg BitVec.toNat h)
  have haxis {k : Nat} {s0 s1 : Word} (h : (k, s0, s1) ∈ axes s.bank0 s.bank1) :=
    (Bool.eq_iff_iff.1 (verdict_axis (lo, hi) _ _ s h)).trans (withinWindow_iff ..)
  exact ⟨(compareBanks (lo, hi) s.bank0 s.bank1 s).res0, hwin ▸ exec_stcmp hc0 hc1, haxis (by simp [axes]),
    haxis (by simp [axes]), haxis (by simp [axes]), verdict_pass .., fun i => packVerdict_elsewhere _ _ _⟩

/-! ## The range of a difference (R262) -/

/-- A sum in range, times another bank's count. -/
theorem sum_mul_bounds {sum cnt : Word} {n : Nat} (hsum : SumWf sum cnt) (hn : cnt.toNat * n ≤ 65025) :
    -2130739200 ≤ sext32 sum * n ∧ sext32 sum * n ≤ 2130674175 := by
  obtain ⟨hlow, hhigh⟩ := hsum
  have hcounts : (cnt.toNat : Int) * n ≤ 65025 := mod_cast hn
  have hlow' := mul_le_mul_of_nonneg_right hlow (Int.natCast_nonneg n)
  have hhigh' := mul_le_mul_of_nonneg_right hhigh (Int.natCast_nonneg n)
  constructor <;> linarith

/-- The difference of two banks' sums in range is at most the sum of the two products' extremes, which fits 32 bits. -/
theorem difference_le {s0 n0 s1 n1 : Word} (hn0 : n0.toNat ≤ 255) (hn1 : n1.toNat ≤ 255) (h0 : SumWf s0 n0)
    (h1 : SumWf s1 n1) : difference s0 n0 s1 n1 ≤ 4261478400 := by
  have hproduct0 := sum_mul_bounds h0 (Nat.mul_le_mul hn0 hn1)
  have hproduct1 := sum_mul_bounds h1 (Nat.mul_le_mul hn1 hn0)
  rw [difference]
  omega

/-- Settles O53: each result is a difference of two sums in range. -/
theorem differencesFitTheirRegisters : Obligations.DifferencesFitTheirRegisters := by
  intro m s ⟨hn0, hx0, hy0, hz0⟩ ⟨hn1, hx1, hy1, hz1⟩ h0 h1
  refine ⟨_, exec_stcmp h0 h1, fun s0 s1 res hmem => ?_⟩
  have hlane : res = natBits32 (difference s0 s.bank0.cnt s1 s.bank1.cnt) ∧ SumWf s0 s.bank0.cnt ∧ SumWf s1 s.bank1.cnt := by
    simp only [List.mem_cons, Prod.mk.injEq, List.not_mem_nil, or_false] at hmem
    obtain ⟨rfl, rfl, rfl⟩ | ⟨rfl, rfl, rfl⟩ | ⟨rfl, rfl, rfl⟩ := hmem
    · exact ⟨rfl, hx0, hx1⟩
    · exact ⟨rfl, hy0, hy1⟩
    · exact ⟨rfl, hz0, hz1⟩
  obtain ⟨rfl, hs0, hs1⟩ := hlane
  have hle := difference_le hn0 hn1 hs0 hs1
  rw [toNat_natBits32 _ (by omega)]
  exact ⟨rfl, hle⟩

/-! ## The comparison of averages (R260) -/

/-- The difference is the distance of the averages, times both counts. -/
theorem difference_eq_averages {n0 n1 : Word} (h0 : n0 ≠ 0) (h1 : n1 ≠ 0) (s0 s1 : Word) :
    (difference s0 n0 s1 n1 : ℚ) = |(s1.toInt : ℚ) / n1.toNat - s0.toInt / n0.toNat| * (n0.toNat * n1.toNat) := by
  have hn0 : (n0.toNat : ℚ) ≠ 0 := mod_cast BitVec.toNat_ne_iff_ne.2 h0
  have hn1 : (n1.toNat : ℚ) ≠ 0 := mod_cast BitVec.toNat_ne_iff_ne.2 h1
  have hcounts : (0 : ℚ) ≤ n0.toNat * n1.toNat := by positivity
  rw [← abs_of_nonneg hcounts, ← abs_mul, difference_eq, Nat.cast_natAbs]
  push_cast
  congr 1
  field_simp

/-- An axis passes exactly when the distance of its averages is in the window. -/
theorem withinWindow_iff_averages (win : Nat × Nat) {n0 n1 : Word} (h0 : n0 ≠ 0) (h1 : n1 ≠ 0) (s0 s1 : Word) :
    withinWindow win n0 n1 (difference s0 n0 s1 n1) = true ↔
      (win.1 : ℚ) ≤ |(s1.toInt : ℚ) / n1.toNat - s0.toInt / n0.toNat| ∧
      |(s1.toInt : ℚ) / n1.toNat - s0.toInt / n0.toNat| ≤ win.2 := by
  have hpos0 : (0 : ℚ) < n0.toNat := mod_cast Nat.pos_of_ne_zero (BitVec.toNat_ne_iff_ne.2 h0)
  have hpos1 : (0 : ℚ) < n1.toNat := mod_cast Nat.pos_of_ne_zero (BitVec.toNat_ne_iff_ne.2 h1)
  have hcounts : (0 : ℚ) < n0.toNat * n1.toNat := mul_pos hpos0 hpos1
  rw [withinWindow_iff, ← Nat.cast_le (α := ℚ), ← Nat.cast_le (α := ℚ), difference_eq_averages h0 h1, mul_assoc, mul_assoc]
  push_cast
  rw [mul_le_mul_iff_left₀ hcounts, mul_le_mul_iff_left₀ hcounts]

/-- Settles O52. -/
theorem verdictIsTheAverageWindow : Obligations.VerdictIsTheAverageWindow := by
  rintro m s n0 n1 rfl rfl h0 h1
  refine ⟨_, exec_stcmp h0 h1, fun k s0 s1 hmem => ?_, ?_⟩
  · rw [verdict_axis _ _ _ _ hmem]
    exact withinWindow_iff_averages _ h0 h1 s0 s1
  · rw [verdict_pass, Bool.and_eq_true, Bool.and_eq_true, and_assoc]

/-! ## The laws of the comparator (R273) -/

/-- Two pairs of banks that STCMP does not tell apart: the counts have one product, and each axis has one difference. -/
def SameComparison (b0 b1 c0 c1 : AccBank) : Prop :=
  c0.cnt.toNat * c1.cnt.toNat = b0.cnt.toNat * b1.cnt.toNat ∧
  difference c0.x c0.cnt c1.x c1.cnt = difference b0.x b0.cnt b1.x b1.cnt ∧
  difference c0.y c0.cnt c1.y c1.cnt = difference b0.y b0.cnt b1.y b1.cnt ∧
  difference c0.z c0.cnt c1.z c1.cnt = difference b0.z b0.cnt b1.z b1.cnt

/-- The window's test reads only the product of the counts. -/
theorem withinWindow_congr (win : Nat × Nat) {n0 n1 m0 m1 : Word} (h : m0.toNat * m1.toNat = n0.toNat * n1.toNat) (d : Nat) :
    withinWindow win m0 m1 d = withinWindow win n0 n1 d := by
  simp only [withinWindow, mul_assoc, h]

/-- STCMP answers the same results from two states whose banks it does not tell apart. -/
theorem stcmp_congr (m : BitVec 2) {s u : State} (h0 : s.bank0.cnt ≠ 0) (h1 : s.bank1.cnt ≠ 0)
    (h : SameComparison s.bank0 s.bank1 u.bank0 u.bank1) :
    ∃ t v, exec (.stcmp m) s = .next t ∧ exec (.stcmp m) u = .next v ∧
      v.res0 = t.res0 ∧ v.res1 = t.res1 ∧ v.res2 = t.res2 ∧ v.res3 = t.res3 := by
  obtain ⟨hcnt, hx, hy, hz⟩ := h
  have hcounts : u.bank0.cnt.toNat * u.bank1.cnt.toNat ≠ 0 :=
    hcnt ▸ mul_ne_zero (BitVec.toNat_ne_iff_ne.2 h0) (BitVec.toNat_ne_iff_ne.2 h1)
  have hu0 : u.bank0.cnt ≠ 0 := BitVec.toNat_ne_iff_ne.1 (left_ne_zero_of_mul hcounts)
  have hu1 : u.bank1.cnt ≠ 0 := BitVec.toNat_ne_iff_ne.1 (right_ne_zero_of_mul hcounts)
  refine ⟨_, _, exec_stcmp h0 h1, exec_stcmp hu0 hu1, ?_⟩
  simp only [compareBanks, finish_res0, finish_res1, finish_res2, finish_res3, hx, hy, hz, withinWindow_congr _ hcnt, and_self]

/-- The difference has no sign. -/
theorem difference_swap (s0 n0 s1 n1 : Word) : difference s1 n1 s0 n0 = difference s0 n0 s1 n1 := by
  rw [difference_eq, difference_eq, ← Int.natAbs_neg, neg_sub]

/-- Negating both sums keeps the difference. -/
theorem difference_neg {s0 s1 t0 t1 : Word} (n0 n1 : Word) (h0 : t0.toInt = -s0.toInt) (h1 : t1.toInt = -s1.toInt) :
    difference t0 n0 t1 n1 = difference s0 n0 s1 n1 := by
  rw [difference_eq, difference_eq, h0, h1, ← Int.natAbs_neg]
  congr 1
  ring

/-- Adding one number to every sample keeps the difference. -/
theorem difference_shift {s0 n0 s1 n1 t0 t1 : Word} {c : Int} (h0 : t0.toInt = s0.toInt + c * n0.toNat)
    (h1 : t1.toInt = s1.toInt + c * n1.toNat) : difference t0 n0 t1 n1 = difference s0 n0 s1 n1 := by
  rw [difference_eq, difference_eq, h0, h1]
  congr 1
  ring

/-- With one sample in each bank the difference is that of the samples. -/
theorem difference_one_one (s0 s1 : Word) : (difference s0 1 s1 1 : Int) = |s1.toInt - s0.toInt| := by
  simp [difference_eq]

/-- Settles O54: swapping, negating and shifting keep the product of the counts and every difference. -/
theorem comparatorLaws : Obligations.ComparatorLaws := by
  refine ⟨fun m s u h0 h1 h => stcmp_congr m h0 h1 ?_, fun m s h0 h1 => ?_, fun m s h0 h1 => ?_⟩
  · obtain ⟨hu0, hu1⟩ | ⟨hn0, hn1, hneg | ⟨c, hshift⟩⟩ := h
    · rw [hu0, hu1]
      exact ⟨mul_comm _ _, difference_swap .., difference_swap .., difference_swap ..⟩
    · obtain ⟨hx0, hy0, hz0⟩ := hneg .bank0
      obtain ⟨hx1, hy1, hz1⟩ := hneg .bank1
      rw [SameComparison, hn0, hn1]
      exact ⟨rfl, difference_neg _ _ hx0 hx1, difference_neg _ _ hy0 hy1, difference_neg _ _ hz0 hz1⟩
    · obtain ⟨hx0, hy0, hz0⟩ := hshift .bank0
      obtain ⟨hx1, hy1, hz1⟩ := hshift .bank1
      rw [SameComparison, hn0, hn1]
      exact ⟨rfl, difference_shift hx0 hx1, difference_shift hy0 hy1, difference_shift hz0 hz1⟩
  · refine ⟨_, _, exec_stcmp h0 h1, exec_stcmp h0 h1, ?_⟩
    simp only [window_xor_one, and_self]
  · refine ⟨_, exec_stcmp (h0 ▸ by decide) (h1 ▸ by decide), fun k s0 s1 hmem => ?_⟩
    rw [verdict_axis _ _ _ _ hmem, h0, h1, withinWindow_one_one, ← difference_one_one]
    norm_cast

end Sys2Proof.Machine
end

section
/-! STAT after a command (60_exceptions.md R303): what the command leaves does not depend on the STAT before it, and only the
decoder's errors, ACCFULL and CNTZERO leave STAT other than 0. -/

namespace Sys2Proof.Machine

/-! ## No command reads STAT -/

/-- A failing check overwrites STAT, so a checked command with one legal end answers alike whatever STAT was. -/
theorem checked_with_stat (e : Option CmdError) (s u : State) (w : Word) :
    checked e { s with stat := w } u = checked e s u := by
  cases e with
  | none => rfl
  | some c => rfl

/-- A command's rule answers the same state whatever STAT was. -/
theorem exec_with_stat (i : Instr) (s : State) (w : Word) : exec i { s with stat := w } = exec i s := by
  cases i with
  | nop | c2dec | c5dec | stadec | stcfg => rfl
  | c2enc | c5enc | scale | drdytmo | stcmp => exact checked_with_stat _ s _ w
  | accclr b => cases b <;> rfl
  | accadd b => cases b <;> exact checked_with_stat _ s _ w

/-- Running a command word, legal or not, answers the same state whatever STAT was. -/
theorem execute_with_stat (v w : Word) (s : State) : execute v { s with stat := w } = execute v s := by
  obtain ⟨e, hd, he⟩ | ⟨i, hd, hi⟩ := execute_cases v s
  · exact (execute_of_error (s := { s with stat := w }) hd).trans he.symm
  · exact (execute_of_ok (s := { s with stat := w }) hd).trans ((exec_with_stat i s w).trans hi.symm)

/-! ## When a command leaves STAT 0 -/

/-- A command with legal fields leaves STAT 0, unless it is ACCADD on a full bank or STCMP with an empty one (R302, R303). -/
theorem exec_stat_eq_zero {i : Instr} {s t : State} (hfield : fieldError s.params.codes i = none)
    (hadd : ∀ b, i = .accadd b → (bankOf s b).cnt ≠ 255)
    (hcmp : ∀ m, i = .stcmp m → s.bank0.cnt ≠ 0 ∧ s.bank1.cnt ≠ 0) (h : exec i s = .next t) : t.stat = 0 := by
  obtain ⟨u, hu, hstat⟩ | ⟨hop, _⟩ | ⟨hop, _⟩ := exec_ends_of_legal hfield
  · cases hu.symm.trans h
    exact hstat
  · cases i with
    | accadd b =>
      cases (exec_accadd (hadd b rfl)).symm.trans h
      rfl
    | _ => cases hop
  · cases i with
    | stcmp m =>
      obtain ⟨h0, h1⟩ := hcmp m rfl
      cases (exec_stcmp h0 h1).symm.trans h
      rfl
    | _ => cases hop

/-- Settles O18: a refused word ends in the decoder's error, and a decoded one in ACCFULL, in CNTZERO or with STAT 0. -/
theorem statDescribesTheLastCommand : Obligations.StatDescribesTheLastCommand := by
  refine ⟨execute_with_stat, fun v s e hd => ?_, fun v s i hd => ?_, fun a n v s h => ?_⟩
  · rw [execute_of_error hd, raiseError_eq, statError_eq_ofNat]
  · obtain ⟨_, _, hfield⟩ := (decode_eq_ok_iff ..).1 hd
    obtain ⟨t, ht⟩ := exec_goes_on i s
    refine ⟨t, (execute_of_ok hd).trans ht, ?_, ?_, fun hadd hcmp => exec_stat_eq_zero hfield hadd hcmp ht⟩
    · rintro b rfl hfull
      cases ht.symm.trans (exec_accadd_full hfull)
      rfl
    · rintro m rfl hempty
      cases ht.symm.trans (exec_stcmp_empty hempty)
      rfl
  · exact busWrite_illegal (legalAccess_eq_false h) v s

end Sys2Proof.Machine
end

section
/-! The reset input (70_reset_and_hazards.md R340, R342): asserting it makes every register read 0, and while it is asserted an
access has no step. -/

namespace Sys2Proof.Machine

/-! ## Registers that are 0 -/

/-- A register is a word of the state or of one of its banks, so it reads 0 when those are 0 and the banks are empty. -/
theorem readReg_of_registersZero {s : State} (h : RegistersZero s) (r : Reg) : readReg s r = 0 := by
  obtain ⟨hcmd, hstat, harg0, harg1, harg2, hres0, hres1, hres2, hres3, hbank0, hbank1⟩ := h
  cases r with
  | cmd => exact hcmd
  | stat => exact hstat
  | arg0 => exact harg0
  | arg1 => exact harg1
  | arg2 => exact harg2
  | res0 => exact hres0
  | res1 => exact hres1
  | res2 => exact hres2
  | res3 => exact hres3
  | acc0x | acc0y | acc0z | cnt0 => rw [readReg, hbank0, AccBank.empty]
  | acc1x | acc1y | acc1z | cnt1 => rw [readReg, hbank1, AccBank.empty]

/-- The state right after reset holds 0 in every register (R340). -/
theorem registersZero_reset : RegistersZero State.reset := by simp [RegistersZero, State.reset]

/-- Asserting reset puts 0 in every register (R340). -/
theorem registersZero_applyReset (s : State) : RegistersZero (applyReset true s) := by simp [RegistersZero]

/-! ## Events of the reset input, and accesses while it is asserted -/

/-- A step with a change of the reset input next applies it, with the event taken off the program. -/
theorem step_resetInput {s : State} {asserted : Bool} {rest : List HostEvent}
    (hp : s.program = .resetInput asserted :: rest) :
    step s = .next (applyReset asserted { s with program := rest }) := by
  rw [step, hp]
  rfl

/-- While reset is asserted a step with a read next stops (R342). -/
theorem step_read_inReset {s : State} {a : Addr} {n : Nat} {rest : List HostEvent} (hr : s.inReset = true)
    (hp : s.program = .read a n :: rest) : step s = .fault .accessDuringReset := by
  simp [step, hp, hostEvent, hr]

/-- While reset is asserted a step with a write next stops (R342). -/
theorem step_write_inReset {s : State} {a : Addr} {n : Nat} {v : Word} {rest : List HostEvent} (hr : s.inReset = true)
    (hp : s.program = .write a n v :: rest) : step s = .fault .accessDuringReset := by
  simp [step, hp, hostEvent, hr]

/-! ## The obligations -/

/-- Settles O1: in both states every register is 0, so every register reads 0. -/
theorem resetClearsEveryRegister : Obligations.ResetClearsEveryRegister :=
  ⟨readReg_of_registersZero registersZero_reset,
    fun s => ⟨_, rfl, readReg_of_registersZero (registersZero_applyReset s)⟩⟩

/-- Settles O2: the step applies reset, which keeps the host's fields and the parameters. -/
theorem resetLeavesTheHost : Obligations.ResetLeavesTheHost := fun _ _ hp =>
  ⟨_, step_resetInput hp, applyReset_program _ true, applyReset_trace _ true, applyReset_params _ true,
    applyReset_inReset _ true, readReg_of_registersZero (registersZero_applyReset _)⟩

/-- Settles O3, with one step equation for each kind of event. -/
theorem accessDuringResetHasNoStep : Obligations.AccessDuringResetHasNoStep :=
  ⟨fun _ _ _ _ => step_read_inReset, fun _ _ _ _ _ => step_write_inReset, fun _ _ => step_resetInput⟩

end Sys2Proof.Machine
end
